-- ==== Sys2Proof/Word.lean ====
section
/-! DEFINITION. The word types of the engine and their names (00_scope.md rules R5, R7). -/

namespace Sys2Proof

/-- A wire byte, a payload byte, a command id: `BYTE_W` = `CMD_W` = 8 bits (R5). -/
abbrev Byte := BitVec 8

/-- The CRC register: `CRC_W` = 16 bits (R5). -/
abbrev CrcWord := BitVec 16

/-- The command word `CW` (30_encoding.md R67). -/
abbrev CommandWord := BitVec 16

end Sys2Proof
end

