-- ==== Sys2Proof/Config.lean ====
section
/-! DEFINITION. What is fixed for one engine (00_scope.md rule R5, 93_implementation_defined.md U14), the
open parameter `LINE_MAX`, and the free values: opaque constants with no body, of which nothing can be
proved but their type. -/

namespace Sys2Proof.Config

/-! ## Literals of the source, taken as written (R5, R8; U14) -/

/-- `'#'`, the head marker that opens every frame. -/
abbrev headMarker : Byte := 0x23#8
/-- `','`, the field separator. -/
abbrev separator : Byte := 0x2C#8
/-- `'A'`, the kind character of an Ack. -/
abbrev kindAck : Byte := 0x41#8
/-- `'N'`, the kind character of a Nack. -/
abbrev kindNack : Byte := 0x4E#8
/-- `DELIM`, the null byte that terminates every frame. -/
abbrev delimiter : Byte := 0x00#8
/-- `CRC_POLY`. -/
abbrev crcPoly : CrcWord := 0x1021#16
/-- `CRC_INIT`. -/
abbrev crcInit : CrcWord := 0x0000#16
/-- `PAYLOAD_MAX`. -/
abbrev payloadMax : Nat := 255
/-- The least `LINE_MAX` the spec allows: the longest canonical line (R5, 30_encoding.md R52). -/
abbrev lineMaxLeast : Nat := 776

/-! ## The open parameter `LINE_MAX` (R5, 92_eei_decisions.md D4; log 8) -/

/-- How far this engine's `LINE_MAX` exceeds the least the spec allows. -/
opaque lineMaxExtra : Nat

/-- `LINE_MAX`, the longest received line the decoder accepts: any number not below 776. -/
def lineMax : Nat := lineMaxLeast + lineMaxExtra

/-- The width of `OP_LEN` and `RES_LEN`: `ceil(log2(LINE_MAX+1))` bits (10_state.md R18, R19), the least width that holds
`LINE_MAX`. -/
def lenWidth : Nat := Nat.log2 lineMax + 1

/-! ## Free values: what a result latch holds after an operation that does not define it
(10_state.md R19, 93_implementation_defined.md U6; log 4). The argument is `State.freeIdx`. -/

/-- `HAS_PAYLOAD` where an operation leaves it undefined. -/
opaque freeHasPayload : Nat → Bool
/-- `RES_KIND` where an operation leaves it undefined. -/
opaque freeResKind : Nat → BitVec 2
/-- `RES_CMD` where an operation leaves it undefined. -/
opaque freeResCmd : Nat → Byte
/-- `RES_SIDE` where an operation leaves it undefined. -/
opaque freeResSide : Nat → BitVec 2
/-- `RES_CK` where an operation leaves it undefined. -/
opaque freeResCk : Nat → Byte
/-- `RES_LEN` where an operation leaves it undefined: any number of its width. -/
opaque freeResLen : Nat → BitVec lenWidth
/-- Byte `i` of `RES_BUF[0..LINE_MAX-1]` where an operation leaves it undefined (second argument: `i`). -/
opaque freeResByte : Nat → Fin lineMax → Byte

end Sys2Proof.Config
end

