-- ==== Sys2Proof/Syntax.lean ====
section
/-! DEFINITION. What the engine is told to do: the fourteen rows of spec/opcode_table.json as one
inductive, and the shapes of wire frames (00_scope.md section 7, 30_encoding.md). -/

namespace Sys2Proof

/-- The side selector: Left=0, Right=1, Both=2; the value 3 of a 2-bit field is no side (00_scope.md R5). -/
inductive Side where
  | left
  | right
  | both
deriving DecidableEq, Repr

/-- A Data frame as data (00_scope.md section 7, 42_decode.md R133). -/
structure Frame where
  cmd : Byte
  side : Side
  payload : List Byte
  checksum : Byte
deriving DecidableEq, Repr

/-- The kind of a received line by its first two characters (30_encoding.md R62); each kind keeps every
byte that does not decide it. -/
inductive LineKind where
  /-- `#N`, then `rest`. -/
  | nack (rest : List Byte)
  /-- `#A`, then `rest`. -/
  | ack (rest : List Byte)
  /-- `#`, then `body`, which begins with neither `N` nor `A`. -/
  | data (body : List Byte)
  /-- Any other line, whole. -/
  | malformed (line : List Byte)
deriving DecidableEq, Repr

/-- The rows of spec/opcode_table.json. A command word keeps every field of `CW` (30_encoding.md R67),
those its operation ignores among them; a wire line keeps every byte. -/
inductive Instr where
  /-- `CHECKSUM` (40_checksum.md R86). -/
  | checksum (ackOnly : Bool) (side : BitVec 2) (cmd : Byte)
  /-- `ENCODE` (41_encode.md R100). -/
  | encode (ackOnly : Bool) (side : BitVec 2) (cmd : Byte)
  /-- `SEND` (41_encode.md R104). -/
  | send (ackOnly : Bool) (side : BitVec 2) (cmd : Byte)
  /-- `DECODE` (42_decode.md R134). -/
  | decode (ackOnly : Bool) (side : BitVec 2) (cmd : Byte)
  /-- `AWAIT` (43_correlator.md R151). -/
  | await (ackOnly : Bool) (side : BitVec 2) (cmd : Byte)
  /-- `FETCH` (43_correlator.md R165). -/
  | fetch (ackOnly : Bool) (side : BitVec 2) (cmd : Byte)
  /-- Reserved operation code 6, reserved bits clear (30_encoding.md R68). -/
  | reservedOp6 (ackOnly : Bool) (side : BitVec 2) (cmd : Byte)
  /-- Reserved operation code 7, reserved bits clear (30_encoding.md R68). -/
  | reservedOp7 (ackOnly : Bool) (side : BitVec 2) (cmd : Byte)
  /-- Reserved bit 8 set, whatever the other fields (30_encoding.md R68). -/
  | reservedBit8 (op : BitVec 3) (ackOnly : Bool) (side : BitVec 2) (bit9 : Bool) (cmd : Byte)
  /-- Reserved bit 9 set and bit 8 clear, whatever the other fields (30_encoding.md R68). -/
  | reservedBit9 (op : BitVec 3) (ackOnly : Bool) (side : BitVec 2) (cmd : Byte)
  /-- A received line `#N...` (42_decode.md R122). -/
  | nack (rest : List Byte)
  /-- A received line `#A...` (42_decode.md R123). -/
  | ack (rest : List Byte)
  /-- A received line `#...` that is neither (42_decode.md R124 to R133). -/
  | data (body : List Byte)
  /-- Any other received line, and every over-long one (42_decode.md R121, R136). -/
  | malformed (line : List Byte)
deriving DecidableEq, Repr

/-- The received line of a kind, as a row of the table. -/
def LineKind.toInstr : LineKind → Instr
  | .nack rest => .nack rest
  | .ack rest => .ack rest
  | .data body => .data body
  | .malformed line => .malformed line

/-- What the engine takes an instruction from: the host port's command word, or the bytes of one received
line, delimiter stripped (30_encoding.md section 6 and R50). -/
inductive Code where
  | commandWord (w : CommandWord)
  | line (bytes : List Byte)
deriving DecidableEq, Repr

end Sys2Proof
end

