-- ==== Sys2Proof/WellFormed.lean ====
section
/-! DEFINITION. Which terms of `Instr` stand for a code of the engine: the fields of a command word are
held by their types, so the checks are about received lines (30_encoding.md R62, 42_decode.md R136). -/

namespace Sys2Proof

/-- Whether a line is longer than `LINE_MAX` (42_decode.md R136). The bytes beyond the least `LINE_MAX`
the spec allows are looked for first, so that a shorter line is settled for every `LINE_MAX`. -/
def overlong (line : List Byte) : Bool :=
  match line.drop Config.lineMaxLeast with
  | [] => false
  | _ :: _ => decide (Config.lineMax < line.length)

/-- The well-formed instructions: those that some code of the engine decodes to. -/
def wellFormed : Instr → Bool
  | .checksum _ _ _ => true
  | .encode _ _ _ => true
  | .send _ _ _ => true
  | .decode _ _ _ => true
  | .await _ _ _ => true
  | .fetch _ _ _ => true
  | .reservedOp6 _ _ _ => true
  | .reservedOp7 _ _ _ => true
  | .reservedBit8 _ _ _ _ _ => true
  | .reservedBit9 _ _ _ _ => true
  | .nack rest => !overlong (Config.headMarker :: Config.kindNack :: rest)
  | .ack rest => !overlong (Config.headMarker :: Config.kindAck :: rest)
  | .data body => !overlong (Config.headMarker :: body) && body.head? != some Config.kindNack
      && body.head? != some Config.kindAck
  | .malformed line => overlong line || line.head? != some Config.headMarker

end Sys2Proof
end

