-- ==== Sys2Proof/Decode.lean ====
section
/-! DEFINITION. From codes to instructions and back: the command word of the host port (30_encoding.md
R67, R68) and the classification of a received line (30_encoding.md R62, 42_decode.md R121 to R124, R136).
Both are total: the reserved words and the lines that are no frame are rows of the table themselves. -/

namespace Sys2Proof

/-! ## Fields of the command word (30_encoding.md R67) -/

/-- `CW[15:13]`, the operation code. -/
def cwOp (w : CommandWord) : BitVec 3 := w.extractLsb' 13 3
/-- `CW[12]`. -/
def cwAckOnly (w : CommandWord) : Bool := w.getLsbD 12
/-- `CW[11:10]`. -/
def cwSide (w : CommandWord) : BitVec 2 := w.extractLsb' 10 2
/-- `CW[9]`, reserved. -/
def cwBit9 (w : CommandWord) : Bool := w.getLsbD 9
/-- `CW[8]`, reserved. -/
def cwBit8 (w : CommandWord) : Bool := w.getLsbD 8
/-- `CW[7:0]`. -/
def cwCmd (w : CommandWord) : Byte := w.extractLsb' 0 8

/-- The row of an operation code, in a word whose reserved bits are clear (R67, R68). -/
def commandRow (op : BitVec 3) (ackOnly : Bool) (side : BitVec 2) (cmd : Byte) : Instr :=
  match op.toNat with
  | 0 => .checksum ackOnly side cmd
  | 1 => .encode ackOnly side cmd
  | 2 => .send ackOnly side cmd
  | 3 => .decode ackOnly side cmd
  | 4 => .await ackOnly side cmd
  | 5 => .fetch ackOnly side cmd
  | 6 => .reservedOp6 ackOnly side cmd
  | _ => .reservedOp7 ackOnly side cmd

/-- The instruction of a command word. The reserved bits are tested before the operation code; where a word
falls under two reserved rows the order is the model's choice, and the rows act alike (R68; log 12). -/
def decodeCommand (w : CommandWord) : Instr :=
  if cwBit8 w then .reservedBit8 (cwOp w) (cwAckOnly w) (cwSide w) (cwBit9 w) (cwCmd w)
  else if cwBit9 w then .reservedBit9 (cwOp w) (cwAckOnly w) (cwSide w) (cwCmd w)
  else commandRow (cwOp w) (cwAckOnly w) (cwSide w) (cwCmd w)

/-! ## Received lines -/

/-- The classification of a received line (30_encoding.md R62), after the test of its length
(42_decode.md R136): head marker, then `N`, then `A`, then Data. -/
def classify (line : List Byte) : LineKind :=
  if overlong line then .malformed line
  else match line with
    | [] => .malformed []
    | head :: body =>
      if head ≠ Config.headMarker then .malformed (head :: body)
      else match body with
        | [] => .data []
        | kind :: rest =>
          if kind = Config.kindNack then .nack rest
          else if kind = Config.kindAck then .ack rest
          else .data (kind :: rest)

/-- The instruction of a received line. -/
def decodeLine (line : List Byte) : Instr := (classify line).toInstr

/-- The decoder: total, one instruction for every code. -/
def decode : Code → Instr
  | .commandWord w => decodeCommand w
  | .line bytes => decodeLine bytes

/-! ## The encoder, from the same layouts -/

/-- The command word of its fields, high to low (30_encoding.md R67). -/
def packCommand (op : BitVec 3) (ackOnly : Bool) (side : BitVec 2) (bit9 bit8 : Bool) (cmd : Byte) : CommandWord :=
  op ++ (BitVec.ofBool ackOnly ++ (side ++ (BitVec.ofBool bit9 ++ (BitVec.ofBool bit8 ++ cmd))))

/-- The code of an instruction. -/
def encode : Instr → Code
  | .checksum ao side cmd => .commandWord (packCommand 0 ao side false false cmd)
  | .encode ao side cmd => .commandWord (packCommand 1 ao side false false cmd)
  | .send ao side cmd => .commandWord (packCommand 2 ao side false false cmd)
  | .decode ao side cmd => .commandWord (packCommand 3 ao side false false cmd)
  | .await ao side cmd => .commandWord (packCommand 4 ao side false false cmd)
  | .fetch ao side cmd => .commandWord (packCommand 5 ao side false false cmd)
  | .reservedOp6 ao side cmd => .commandWord (packCommand 6 ao side false false cmd)
  | .reservedOp7 ao side cmd => .commandWord (packCommand 7 ao side false false cmd)
  | .reservedBit8 op ao side bit9 cmd => .commandWord (packCommand op ao side bit9 true cmd)
  | .reservedBit9 op ao side cmd => .commandWord (packCommand op ao side true false cmd)
  | .nack rest => .line (Config.headMarker :: Config.kindNack :: rest)
  | .ack rest => .line (Config.headMarker :: Config.kindAck :: rest)
  | .data body => .line (Config.headMarker :: body)
  | .malformed line => .line line

/-! ## Words numbered as spec/opcode_table.json numbers them (log 13) -/

/-- The `n` bytes of a number, the most significant first: byte 0 of a line stands in the highest bits, as the
table's wire rows say. -/
def bytesOfNat : Nat → Nat → List Byte
  | 0, _ => []
  | n + 1, w => BitVec.ofNat 8 (w >>> (8 * n)) :: bytesOfNat n w

/-- The code of a table word of `nbits` bits. The table has two formats of 16 bits, HOST_CW16 and WIRE_LINE:
sixteen bits whose first byte is the head marker `#` are a line (as a command word they would have both reserved
bits set), any other sixteen bits are a command word, and any other size is a line. -/
def Code.ofTableWord (nbits w : Nat) : Code :=
  if nbits = 16 ∧ w / 256 % 256 ≠ 0x23 then .commandWord (BitVec.ofNat 16 w)
  else .line (bytesOfNat (nbits / 8) w)

/-- What the decoder reads from a table word. -/
def decodeTableWord (nbits w : Nat) : Option Instr := some (decode (Code.ofTableWord nbits w))

end Sys2Proof
end

