-- ==== Sys2Proof/Machine/State.lean ====
section
/-! DEFINITION. The engine's state as plain data (10_state.md), the values it takes, how a step can stop,
and the state right after reset (10_state.md R27). -/

namespace Sys2Proof.Machine

/-! ## Values -/

/-- The error kinds and `OK` (10_state.md R21, 60_exceptions.md R190). The codes 0x9 to 0xF are never
produced (93_implementation_defined.md U7). -/
inductive Status where
  | ok
  | malformedFrame
  | checksumError
  | commandRejected
  | channelMismatch
  | responseTimeout
  | encodingError
  | busy
  | illegalOp
deriving DecidableEq, Repr

/-- What the decoder makes of one line (42_decode.md R120); an error is `MalformedFrame` or `ChecksumError`. -/
inductive Received where
  | nack
  | ack
  | data (frame : Frame)
  | error (kind : Status)
deriving DecidableEq, Repr

/-- One answer of the transport to one `read_until` (10_state.md R17). -/
inductive Event where
  /-- The bytes of one received frame, delimiter stripped. -/
  | line (bytes : List Byte)
  | timeout
deriving DecidableEq, Repr

/-- A buffered `(side, payload)` (10_state.md R11: `buf_side`, `buf_len`, `buf_data`). -/
structure Buffered where
  side : Side
  data : List Byte
deriving DecidableEq, Repr

/-- An entry of the transaction table (10_state.md R11, R12). `pending` holds `exp_side` while the pending
bit is 1; `buf` holds the buffered side and payload while `buf_valid` is 1: the spec asks a model to hold
these fields as optional values. -/
structure Entry where
  pending : Option Side
  buf : Option Buffered
deriving DecidableEq, Repr

/-- The Idle entry: both valid bits 0 (10_state.md R12). -/
def Entry.idle : Entry := ⟨none, none⟩

/-- The transaction table `T`, the only memory the engine has (00_scope.md R9, 20_memory.md R30): the entries
that are not Idle, by command id, ids strictly rising. An id that is not listed reads Idle (log 9). -/
abbrev Memory := List (Nat × Entry)

/-- The operands of the `AWAIT` in progress: `c`, `es`, `ao` (43_correlator.md R151), sampled when it began
(20_memory.md R42). -/
structure Waiting where
  cmd : Byte
  side : Side
  ackOnly : Bool
deriving DecidableEq, Repr

/-- The number of valid bytes in `OP_BUF`: 0 to `LINE_MAX` (10_state.md R18). -/
abbrev OpLen := Fin (Config.lineMax + 1)

/-- The operand buffer, `LINE_MAX` bytes (10_state.md R18): the bytes the host has written from index 0 on, which are no more
than the buffer has; the others read as `OpBuf.byte` says. -/
structure OpBuf where
  bytes : List Byte
  fits : bytes.length ≤ Config.lineMax
deriving DecidableEq, Repr

/-- The buffer the host has written nothing to. -/
def OpBuf.empty : OpBuf := ⟨[], Nat.zero_le _⟩

/-- The `RES_LEN` latch: `ceil(log2(LINE_MAX+1))` bits (10_state.md R19). -/
abbrev ResLen := BitVec Config.lenWidth

/-- The result buffer, `LINE_MAX` bytes (10_state.md R19): the bytes the last operation has written from index 0 on, which are
no more than the buffer has; the others read as `State.resByte` says. -/
structure ResBuf where
  bytes : List Byte
  fits : bytes.length ≤ Config.lineMax
deriving DecidableEq, Repr

/-- The buffer no operation has written to. -/
def ResBuf.empty : ResBuf := ⟨[], Nat.zero_le _⟩

/-! ## The state -/

/-- The state of the engine (10_state.md R10), the two inputs of the host port that start and reset it
(30_encoding.md R67, 70_reset_and_hazards.md R230; log 2), the wait in progress (log 1) and the model's own
counter of free values (log 4). -/
structure State where
  /-- `T`, the transaction table (R11). -/
  mem : Memory
  /-- `TX`, the history of bytes written to the transport (R16). -/
  tx : List Byte
  /-- `RX`, the receive events the transport will answer with, the next one first (R17; log 3). -/
  rx : List Event
  /-- `CW`, the command word latch (R18). -/
  cw : CommandWord
  /-- `OP_LEN` (R18; log 7). -/
  opLen : OpLen
  /-- `OP_BUF` (R18; log 7). -/
  opBuf : OpBuf
  /-- The host has started the operation in `CW` and the engine has not taken it yet. -/
  start : Bool
  /-- The reset pin is asserted. -/
  rst : Bool
  /-- The `AWAIT` in progress, if one is. -/
  waiting : Option Waiting
  /-- `STATUS` (R19, R21). -/
  status : Status
  /-- `HAS_PAYLOAD` (R19). -/
  hasPayload : Bool
  /-- `RES_KIND` (R19). -/
  resKind : BitVec 2
  /-- `RES_CMD` (R19). -/
  resCmd : Byte
  /-- `RES_SIDE` (R19). -/
  resSide : BitVec 2
  /-- `RES_CK` (R19). -/
  resCk : Byte
  /-- `RES_LEN` (R19). -/
  resLen : ResLen
  /-- `RES_BUF` (R19; log 6). -/
  resBuf : ResBuf
  /-- The model's own: which free values come next. -/
  freeIdx : Nat
deriving DecidableEq, Repr

/-- A machine fault: there is none. Every error of the engine ends its operation with a status and the engine
goes on: "Nothing in this layer is fatal" (60_exceptions.md R200, R201). Raised by nobody; safe. -/
inductive Fault : Type
deriving DecidableEq, Repr

/-- An instruction without a meaning. -/
inductive Refusal where
  /-- Raised by an arm of `exec` whose instruction has no meaning yet, under its mnemonic; safe. No arm of this
  model raises it. -/
  | notModelled (mnemonic : String)
deriving DecidableEq, Repr

/-- The engine right after reset (10_state.md R27): every entry Idle, `TX` empty, `STATUS` = `OK`,
`HAS_PAYLOAD` = 0, no operation in progress, no receive event listed. The latches R27 leaves unspecified hold the
values of log 5. -/
def State.reset : State where
  mem := []
  tx := []
  rx := []
  cw := 0
  opLen := ⟨0, Nat.succ_pos Config.lineMax⟩
  opBuf := OpBuf.empty
  start := false
  rst := false
  waiting := none
  status := .ok
  hasPayload := false
  resKind := 0
  resCmd := 0
  resSide := 0
  resCk := 0
  resLen := 0
  resBuf := ResBuf.empty
  freeIdx := 0

end Sys2Proof.Machine
end

