-- ==== Sys2Proof/Machine/Flags.lean ====
section
/-! DEFINITION. The flag-like state: the numbers of `STATUS` and `RES_KIND` (10_state.md R19, R21). -/

namespace Sys2Proof.Machine

/-- The 4-bit code of a status (10_state.md R21). -/
def Status.code : Status → BitVec 4
  | .ok => 0x0
  | .malformedFrame => 0x1
  | .checksumError => 0x2
  | .commandRejected => 0x3
  | .channelMismatch => 0x4
  | .responseTimeout => 0x5
  | .encodingError => 0x6
  | .busy => 0x7
  | .illegalOp => 0x8

/-- `STATUS` as the host reads it (10_state.md R19). -/
def State.statusCode (s : State) : BitVec 4 := s.status.code

/-- `RES_KIND` of a Data frame (10_state.md R19, 42_decode.md R134). -/
def kindCodeData : BitVec 2 := 0
/-- `RES_KIND` of an Ack. -/
def kindCodeAck : BitVec 2 := 1
/-- `RES_KIND` of a Nack. -/
def kindCodeNack : BitVec 2 := 2

end Sys2Proof.Machine
end

