-- ==== Sys2Proof/Machine/Ops.lean ====
section
/-! DEFINITION. The named operations over the state: the transaction table, the streams, the end of an operation
(with a result or with an error), and the host's side of the port. -/

namespace Sys2Proof.Machine

/-! ## The transaction table: `TabRead`, `TabWrite` (00_scope.md R9) -/

/-- The entry of an id; an id that is not listed is Idle. -/
def Memory.read : Memory → Nat → Entry
  | [], _ => Entry.idle
  | (k, e) :: rest, c => if c = k then e else Memory.read rest c

/-- The table with the whole entry of an id replaced (20_memory.md R37), in canonical form: writing Idle removes
the id from the list. -/
def Memory.write : Memory → Nat → Entry → Memory
  | [], c, e => if e = Entry.idle then [] else [(c, e)]
  | (k, x) :: rest, c, e =>
    if c < k then (if e = Entry.idle then (k, x) :: rest else (c, e) :: (k, x) :: rest)
    else if c = k then (if e = Entry.idle then rest else (c, e) :: rest)
    else (k, x) :: Memory.write rest c e

/-- The canonical form: command ids strictly rising and below 256, no Idle entry listed. -/
abbrev Memory.wf (m : Memory) : Prop :=
  m.Pairwise (fun a b => a.1 < b.1) ∧ ∀ x ∈ m, x.1 < 256 ∧ x.2 ≠ Entry.idle

/-- `TabRead(c)`. -/
def State.tabRead (s : State) (c : Byte) : Entry := s.mem.read c.toNat

/-- `TabWrite(c, e)`. -/
def State.tabWrite (s : State) (c : Byte) (e : Entry) : State := { s with mem := s.mem.write c.toNat e }

/-! ## The streams (00_scope.md R9, 20_memory.md R38) -/

/-- `TxWrite(bytes)`: append to the history; it always succeeds (20_memory.md R43; log 16). -/
def State.txWrite (s : State) (bytes : List Byte) : State := { s with tx := s.tx ++ bytes }

/-! ## The end of an operation -/

/-- The result latches an operation defines (10_state.md R19). `bytes` gives `RES_LEN` and `RES_BUF` together. -/
structure Results where
  hasPayload : Option Bool := none
  kind : Option (BitVec 2) := none
  cmd : Option Byte := none
  side : Option (BitVec 2) := none
  ck : Option Byte := none
  bytes : Option (List Byte) := none
deriving DecidableEq, Repr

/-- The bytes of a byte-sequence result that `RES_BUF[0..LINE_MAX-1]` holds: all of them, or the first `LINE_MAX` (log 6). The
first test is `LINE_MAX`'s least value, so that a short result is held without knowing `LINE_MAX`. -/
def bytesHeld (bytes : List Byte) : List Byte :=
  match bytes.drop Config.lineMaxLeast with
  | [] => bytes
  | _ :: _ => bytes.take Config.lineMax

theorem bytesHeld_eq_take (bytes : List Byte) : bytesHeld bytes = bytes.take Config.lineMax := by
  unfold bytesHeld
  split
  · rename_i h
    have hl := List.drop_eq_nil_iff.mp h
    exact (List.take_of_length_le (Nat.le_trans hl (Nat.le_add_right _ _))).symm
  · rfl

/-- `RES_BUF` with a byte-sequence result written to it from index 0 on. -/
def ResBuf.hold (bytes : List Byte) : ResBuf :=
  ⟨bytesHeld bytes, by rw [bytesHeld_eq_take]; exact List.length_take_le _ _⟩

/-- `RES_LEN` with the length of a byte-sequence result written to it. -/
def resLenOf (bytes : List Byte) : ResLen := BitVec.ofNat Config.lenWidth bytes.length

/-- The operation ends: `STATUS` and the latches it defines are written, every other result latch takes a free
value (10_state.md R19; log 4), and no operation is in progress any more. -/
def State.finish (s : State) (st : Status) (r : Results) : State :=
  { s with
    waiting := none
    status := st
    hasPayload := r.hasPayload.getD (Config.freeHasPayload s.freeIdx)
    resKind := r.kind.getD (Config.freeResKind s.freeIdx)
    resCmd := r.cmd.getD (Config.freeResCmd s.freeIdx)
    resSide := r.side.getD (Config.freeResSide s.freeIdx)
    resCk := r.ck.getD (Config.freeResCk s.freeIdx)
    resLen := (r.bytes.map resLenOf).getD (Config.freeResLen s.freeIdx)
    resBuf := (r.bytes.map ResBuf.hold).getD ResBuf.empty
    freeIdx := s.freeIdx + 1 }

/-- `raise E` (00_scope.md R9, 60_exceptions.md R200): the operation ends with status `E`, and "when `STATUS` is not
`OK`, only `STATUS` is defined" (10_state.md R19). Taking an error is this one operation; there is no handler and
nothing to return from (R201): the engine is ready for the next operation. -/
def State.raise (s : State) (e : Status) : State := s.finish e {}

/-- `return` with what the operation defines: status `OK` (00_scope.md R9). -/
def State.complete (s : State) (r : Results) : State := s.finish .ok r

/-- Byte `i` of `RES_BUF[0..LINE_MAX-1]` as the host reads it: a byte the operation has written, or a free value (10_state.md
R19; log 6). -/
def State.resByte (s : State) (i : Fin Config.lineMax) : Byte := s.resBuf.bytes.getD i.val (Config.freeResByte s.freeIdx i)

/-! ## Reset (70_reset_and_hazards.md R230, R231) -/

/-- The reset event: the state of 10_state.md R27, the operation in progress aborted without a status, the receive
events kept. The result latches other than `STATUS` and `HAS_PAYLOAD` are unspecified: free values (log 5). -/
def State.resetEvent (s : State) : State :=
  ({ State.reset with rx := s.rx, freeIdx := s.freeIdx }).finish .ok { hasPayload := some false }

/-! ## The environment's side of the ports: what the host and the transport do between steps (log 2, log 3) -/

/-- `OP_BUF` with its first bytes replaced; those after them stay. -/
def OpBuf.write (buf new : OpBuf) : OpBuf where
  bytes := new.bytes ++ buf.bytes.drop new.bytes.length
  fits := by
    have := buf.fits
    have := new.fits
    rw [List.length_append, List.length_drop]
    omega

/-- The host writes `OP_BUF` from index 0 on (10_state.md R18). -/
def State.writeOpBuf (s : State) (new : OpBuf) : State := { s with opBuf := s.opBuf.write new }

/-- The host writes `OP_LEN` (10_state.md R18). -/
def State.writeOpLen (s : State) (n : OpLen) : State := { s with opLen := n }

/-- The host writes `CW` and starts the engine (30_encoding.md R67). -/
def State.startCommand (s : State) (w : CommandWord) : State := { s with cw := w, start := true }

/-- The host issues an operation with a byte sequence for its operand: `OP_BUF`, `OP_LEN`, `CW`, start (30_encoding.md R67). -/
def State.issue (s : State) (w : CommandWord) (operand : OpBuf) : State :=
  ((s.writeOpBuf operand).writeOpLen ⟨operand.bytes.length, Nat.lt_succ_of_le operand.fits⟩).startCommand w

/-- The transport has one more receive event to answer with, after those it has (10_state.md R17). -/
def State.deliver (s : State) (ev : Event) : State := { s with rx := s.rx ++ [ev] }

/-- The reset pin is asserted (70_reset_and_hazards.md R230). -/
def State.assertReset (s : State) : State := { s with rst := true }

end Sys2Proof.Machine
end

