-- ==== Sys2Proof/Machine/Operands.lean ====
section
/-! DEFINITION. The operand forms of the host operations (30_encoding.md R67): the byte sequence, the side selector,
the command id (a plain field of the instruction). -/

namespace Sys2Proof.Machine

/-- `OP_BUF[i]` (10_state.md R18). A byte the host has not written since reset is 0x00 (log 7). -/
def OpBuf.byte (buf : OpBuf) (i : Fin Config.lineMax) : Byte := buf.bytes.getD i.val 0

/-- `OP_BUF[0 .. OP_LEN-1]` (10_state.md R18), with the bytes of `OpBuf.byte`. -/
def State.operand (s : State) : List Byte := s.opBuf.bytes.takeD s.opLen.val 0

/-- The side of a 2-bit field; 3 is no side (00_scope.md R5). -/
def sideOf (b : BitVec 2) : Option Side :=
  if b = 0 then some .left else if b = 1 then some .right else if b = 2 then some .both else none

/-- The 2-bit code of a side. -/
def sideCode : Side → BitVec 2
  | .left => 0
  | .right => 1
  | .both => 2

end Sys2Proof.Machine
end

