-- ==== Sys2Proof/Machine/Hex.lean ====
section
/-! DEFINITION. Hex digits, the side character and splitting at commas (30_encoding.md R53 to R56, R64, R65). -/

namespace Sys2Proof.Machine

/-- `ishex` (R64). -/
def isHex (ch : Byte) : Bool :=
  (0x30#8 ≤ ch && ch ≤ 0x39#8) || (0x41#8 ≤ ch && ch ≤ 0x46#8) || (0x61#8 ≤ ch && ch ≤ 0x66#8)

/-- `hexval` (R64), of a hex digit. -/
def hexVal (ch : Byte) : Nat :=
  if ch ≤ 0x39#8 then ch.toNat - 0x30 else if ch ≤ 0x46#8 then ch.toNat - 0x41 + 10 else ch.toNat - 0x61 + 10

/-- `hexnum` (R64): first digit most significant, not truncated. -/
def hexNum (digits : List Byte) : Nat := digits.foldl (fun n ch => 16 * n + hexVal ch) 0

/-- `HEXDIG` (R64): one upper-case digit. -/
def hexDig (n : BitVec 4) : Byte :=
  if n < 10 then 0x30#8 + n.setWidth 8 else 0x41#8 + (n.setWidth 8 - 10#8)

/-- `HEX2` (R64): exactly two upper-case digits. -/
def hex2 (v : Byte) : List Byte := [hexDig (v.extractLsb' 4 4), hexDig (v.extractLsb' 0 4)]

/-- `HEXN` (R64): the shortest upper-case rendering, one or two digits. -/
def hexN (v : Byte) : List Byte := if v < 16 then [hexDig (v.extractLsb' 0 4)] else hex2 v

/-- A field of exactly two hex digits, of either case (R53, R56, R57). -/
def hexByte? (field : List Byte) : Option Byte :=
  match field with
  | [a, b] => if isHex a && isHex b then some (BitVec.ofNat 8 (hexNum [a, b])) else none
  | _ => none

/-- A LEN field: one or more hex digits, value at most 255 (R55, 42_decode.md R130). -/
def lenField? (field : List Byte) : Option Nat :=
  if field ≠ [] ∧ field.all isHex ∧ hexNum field ≤ Config.payloadMax then some (hexNum field) else none

/-- The character of a side: `'0'`, `'1'` or `'2'` (R54). -/
def sideChar (s : Side) : Byte := 0x30#8 + (sideCode s).setWidth 8

/-- A SIDE field: exactly one of the three characters (R54, 42_decode.md R129). -/
def sideField? (field : List Byte) : Option Side :=
  match field with
  | [ch] =>
    if ch = 0x30#8 then some .left else if ch = 0x31#8 then some .right
    else if ch = 0x32#8 then some .both else none
  | _ => none

/-- `split(s, ',')` (R65): the pieces between the commas, in order. -/
def split : List Byte → List (List Byte)
  | [] => [[]]
  | b :: rest =>
    if b = Config.separator then [] :: split rest
    else match split rest with
      | [] => [[b]]
      | piece :: pieces => (b :: piece) :: pieces

end Sys2Proof.Machine
end

