-- ==== Sys2Proof/Machine/Checksum.lean ====
section
/-! DEFINITION. The Checksum Engine and the operation CHECKSUM (40_checksum.md). -/

namespace Sys2Proof.Machine

/-- One shift of the register: the bit shifted out of bit 15 decides the exclusive-or (R81). -/
def crcShift (crc : CrcWord) : CrcWord :=
  if crc.getLsbD 15 then (crc <<< 1) ^^^ Config.crcPoly else crc <<< 1

/-- `n` shifts. -/
def crcShifts : Nat → CrcWord → CrcWord
  | 0, crc => crc
  | n + 1, crc => crcShifts n (crcShift crc)

/-- `crc_step` (R81): the byte into the high byte of the register, then eight shifts. -/
def crcStep (crc : CrcWord) (b : Byte) : CrcWord := crcShifts 8 (crc ^^^ (b.setWidth 16 <<< 8))

/-- `CRC16` (R82). -/
def crc16 (s : List Byte) : CrcWord := s.foldl crcStep Config.crcInit

/-- `CHECKSUM(s)`, the low byte of the CRC (R84): the one function of both call sites (R88). -/
def checksum (s : List Byte) : Byte := (crc16 s).setWidth 8

/-- `CHECKSUM` (R86): `RES_CK` takes the checksum of the operand. -/
def execChecksum (_ackOnly : Bool) (_side : BitVec 2) (_cmd : Byte) (s : State) : Host.Outcome State Fault Refusal :=
  .next (s.complete { ck := some (checksum s.operand) })

end Sys2Proof.Machine
end

