-- ==== Sys2Proof/Machine/Encode.lean ====
section
/-! DEFINITION. Frame Codec, encode side: ENCODE and SEND (41_encode.md). -/

namespace Sys2Proof.Machine

/-- The payload tokens: a comma and two digits for each byte (30_encoding.md R56). -/
def payloadTokens : List Byte → List Byte
  | [] => []
  | b :: rest => Config.separator :: (hex2 b ++ payloadTokens rest)

/-- The checksum region of a frame, from `#` through the comma before the checksum (R101, 40_checksum.md R85). -/
def frameRegion (cmd : Byte) (side : Side) (payload : List Byte) : List Byte :=
  Config.headMarker :: (hex2 cmd ++ (Config.separator :: sideChar side :: Config.separator ::
    (hexN (BitVec.ofNat 8 payload.length) ++ (payloadTokens payload ++ [Config.separator]))))

/-- A frame without its delimiter: the line its receiver sees (30_encoding.md R50, R57). -/
def frameLine (cmd : Byte) (side : Side) (payload : List Byte) : List Byte :=
  frameRegion cmd side payload ++ hex2 (checksum (frameRegion cmd side payload))

/-- The whole frame (R101, 30_encoding.md R58). -/
def frame (cmd : Byte) (side : Side) (payload : List Byte) : List Byte :=
  frameLine cmd side payload ++ [Config.delimiter]

/-- The operand checks of R102 that the latches leave reachable: the side, then the payload's length. The side of a
good operand, or none. -/
def encodeOperands? (side : BitVec 2) (payload : List Byte) : Option Side :=
  match sideOf side with
  | none => none
  | some sd => if payload.length ≤ Config.payloadMax then some sd else none

/-- `ENCODE` (R100 to R103). -/
def execEncode (_ackOnly : Bool) (side : BitVec 2) (cmd : Byte) (s : State) : Host.Outcome State Fault Refusal :=
  match encodeOperands? side s.operand with
  | none => .next (s.raise .encodingError)
  | some sd => .next (s.complete { bytes := some (frame cmd sd s.operand) })

/-- `SEND` (R104 to R107): checks, `Busy`, then write the frame and open the record; a payload buffered before is
dropped. -/
def execSend (_ackOnly : Bool) (side : BitVec 2) (cmd : Byte) (s : State) : Host.Outcome State Fault Refusal :=
  match encodeOperands? side s.operand with
  | none => .next (s.raise .encodingError)
  | some sd =>
    if (s.tabRead cmd).pending.isSome then .next (s.raise .busy)
    else .next (((s.txWrite (frame cmd sd s.operand)).tabWrite cmd ⟨some sd, none⟩).complete
      { bytes := some (frame cmd sd s.operand) })

end Sys2Proof.Machine
end

