-- ==== Sys2Proof/Machine/Receive.lean ====
section
/-! DEFINITION. Frame Codec, decode side: the parser of Data lines and the operation DECODE (42_decode.md). -/

namespace Sys2Proof.Machine

/-- The checksum region of a received line: through its last comma, as received (R127). -/
def regionOf (line : List Byte) : List Byte := (line.reverse.dropWhile (fun b => b != Config.separator)).reverse

/-- The payload fields, each exactly two hex digits (R132). -/
def payloadFields? : List (List Byte) → Option (List Byte)
  | [] => some []
  | field :: rest =>
    match hexByte? field, payloadFields? rest with
    | some b, some bs => some (b :: bs)
    | _, _ => none

/-- The field checks, in order: at least four fields, CMD, SIDE (R129), LEN (R130), the count (R131), the payload
(R132). The fields are those of the whole line, the checksum field last. -/
def parseFields (fields : List (List Byte)) (ck : Byte) : Option Frame :=
  match fields with
  | cmdField :: sideField :: lenField :: last :: more =>
    match hexByte? cmdField, sideField? sideField, lenField? lenField with
    | some cmd, some side, some n =>
      if fields.length = n + 4 then
        match payloadFields? (last :: more).dropLast with
        | some payload => some ⟨cmd, side, payload, ck⟩
        | none => none
      else none
    | _, _, _ => none
  | _ => none

/-- A Data line `#body`: the fields (R124), no comma (R125), the checksum field (R126), the checksum (R128), and only
then the fields (R129 to R133). -/
def parseData (body : List Byte) : Except Status Frame :=
  if (split body).length < 2 then .error .malformedFrame
  else match hexByte? ((split body).getLastD []) with
    | none => .error .malformedFrame
    | some ck =>
      if checksum (regionOf (Config.headMarker :: body)) ≠ ck then .error .checksumError
      else match parseFields (split body) ck with
        | none => .error .malformedFrame
        | some f => .ok f

/-- The decoder's result for a line of a known kind (R121 to R124, R136). -/
def received : LineKind → Received
  | .nack _ => .nack
  | .ack _ => .ack
  | .data body =>
    match parseData body with
    | .ok f => .data f
    | .error e => .error e
  | .malformed _ => .error .malformedFrame

/-- `decode(line)` (R120): one result for every line, of nothing but the line. -/
def decodeFrame (line : List Byte) : Received := received (classify line)

/-- The latches DECODE defines for a Data frame (R134). -/
def dataResults (f : Frame) : Results :=
  { hasPayload := some true, kind := some kindCodeData, cmd := some f.cmd, side := some (sideCode f.side),
    ck := some f.checksum, bytes := some f.payload }

/-- `DECODE` (R134) of the operand. -/
def execDecode (_ackOnly : Bool) (_side : BitVec 2) (_cmd : Byte) (s : State) : Host.Outcome State Fault Refusal :=
  match decodeFrame s.operand with
  | .nack => .next (s.finish .commandRejected { kind := some kindCodeNack })
  | .ack => .next (s.complete { hasPayload := some false, kind := some kindCodeAck })
  | .data f => .next (s.complete (dataResults f))
  | .error e => .next (s.raise e)

end Sys2Proof.Machine
end

