-- ==== Sys2Proof/Machine/Correlator.lean ====
section
/-! DEFINITION. The Transaction Correlator (43_correlator.md): AWAIT, the receive events inside it, and FETCH. An AWAIT
is one step that begins the wait and then one step for each receive event, each iteration of the loop of R152 (log 1).
The event has been taken from `RX` before the meaning of its line runs. -/

namespace Sys2Proof.Machine

/-- `AWAIT` begins (R151, R163, R164): the side is checked before any event is consumed, nothing else is required. -/
def execAwait (ackOnly : Bool) (side : BitVec 2) (cmd : Byte) (s : State) : Host.Outcome State Fault Refusal :=
  match sideOf side with
  | none => .next (s.raise .encodingError)
  | some sd => .next { s with waiting := some ⟨cmd, sd, ackOnly⟩ }

/-- The awaited record is destroyed, with any payload it has buffered, and the wait ends with an error: a Nack (R155), a
timeout (R153), a mismatch (R156). -/
def State.evict (s : State) (c : Byte) (e : Status) : State := (s.tabWrite c Entry.idle).raise e

/-- A timeout in the wait (R153). -/
def awaitTimeout (s : State) : State :=
  match s.waiting with
  | none => s
  | some w => s.evict w.cmd .responseTimeout

/-- A payload is released to the host: `Some(payload)` with its side, the entry Idle (R156, R165). -/
def State.release (s : State) (c : Byte) (b : Buffered) : State :=
  (s.tabWrite c Entry.idle).complete
    { hasPayload := some true, side := some (sideCode b.side), bytes := some b.data }

/-- A Nack line (R155). With no wait in progress a line stays in the transport and nothing happens (log 18). -/
def execNack (_rest : List Byte) (s : State) : Host.Outcome State Fault Refusal :=
  match s.waiting with
  | none => .next s
  | some w => .next (s.evict w.cmd .commandRejected)

/-- An Ack line: the commit signal of the awaited id, whatever follows `#A` (R156 to R159). -/
def execAck (_rest : List Byte) (s : State) : Host.Outcome State Fault Refusal :=
  match s.waiting with
  | none => .next s
  | some w =>
    match (s.tabRead w.cmd).buf with
    | some b => if b.side = w.side then .next (s.release w.cmd b) else .next (s.evict w.cmd .channelMismatch)
    | none =>
      if w.ackOnly then .next ((s.tabWrite w.cmd Entry.idle).complete { hasPayload := some false })
      else .next s

/-- The store of a Data frame in the entry of its own id: `pending` and `exp_side` stay, an older payload is replaced
(R160, R162). -/
def State.store (s : State) (f : Frame) : State :=
  s.tabWrite f.cmd { s.tabRead f.cmd with buf := some ⟨f.side, f.payload⟩ }

/-- A Data line: a good frame is stored and the wait goes on (R160, R161); a bad one ends the wait with the decoder's
error and leaves the table as it is (R154). -/
def execData (body : List Byte) (s : State) : Host.Outcome State Fault Refusal :=
  match s.waiting with
  | none => .next s
  | some _ =>
    match parseData body with
    | .ok f => .next (s.store f)
    | .error e => .next (s.raise e)

/-- Any other line ends the wait with `MalformedFrame` and leaves the table as it is (R154). -/
def execMalformed (_line : List Byte) (s : State) : Host.Outcome State Fault Refusal :=
  match s.waiting with
  | none => .next s
  | some _ => .next (s.raise .malformedFrame)

/-- `FETCH` (R165): the release without an Ack and without a side check. -/
def execFetch (_ackOnly : Bool) (_side : BitVec 2) (cmd : Byte) (s : State) : Host.Outcome State Fault Refusal :=
  match (s.tabRead cmd).buf with
  | some b => .next (s.release cmd b)
  | none => .next (s.complete { hasPayload := some false })

end Sys2Proof.Machine
end

