-- ==== Sys2Proof/Machine/Reserved.lean ====
section
/-! DEFINITION. The reserved command words: each ends at once with `IllegalOp` (30_encoding.md R68; log 11). -/

namespace Sys2Proof.Machine

/-- A reserved word is refused with `IllegalOp`; no state but the result latches changes (R68; log 4). -/
def State.illegal (s : State) : State := s.raise .illegalOp

/-- Operation code 6. -/
def execReservedOp6 (_ackOnly : Bool) (_side : BitVec 2) (_cmd : Byte) (s : State) : Host.Outcome State Fault Refusal :=
  .next s.illegal

/-- Operation code 7. -/
def execReservedOp7 (_ackOnly : Bool) (_side : BitVec 2) (_cmd : Byte) (s : State) : Host.Outcome State Fault Refusal :=
  .next s.illegal

/-- Reserved bit 8. -/
def execReservedBit8 (_op : BitVec 3) (_ackOnly : Bool) (_side : BitVec 2) (_bit9 : Bool) (_cmd : Byte) (s : State) :
    Host.Outcome State Fault Refusal :=
  .next s.illegal

/-- Reserved bit 9. -/
def execReservedBit9 (_op : BitVec 3) (_ackOnly : Bool) (_side : BitVec 2) (_cmd : Byte) (s : State) :
    Host.Outcome State Fault Refusal :=
  .next s.illegal

end Sys2Proof.Machine
end

