-- ==== Sys2Proof/Machine/Fetch.lean ====
section
/-! DEFINITION. What the engine takes up next (10_state.md R20, 43_correlator.md R152): a reset, a receive event of the
wait in progress, the operation the host has started, or nothing. -/

namespace Sys2Proof.Machine

/-- What a step finds to do. -/
inductive Fetched where
  /-- Run this instruction in this state. -/
  | run (i : Instr) (s : State)
  /-- No instruction: the step goes to this state. -/
  | done (s : State)

/-- The receive event at the front of `RX`, while a wait is in progress (R152). With no event to answer with, the
transport has not answered yet and the engine is blocked (60_exceptions.md R204; log 3). -/
def fetchEvent (s : State) : Fetched :=
  match s.rx with
  | [] => .done s
  | .timeout :: rest => .done (awaitTimeout { s with rx := rest })
  | .line bytes :: rest => .run (decode (.line bytes)) { s with rx := rest }

/-- The operation the host has started (30_encoding.md R67); with none, nothing happens (10_state.md R20). -/
def fetchCommand (s : State) : Fetched :=
  if s.start then .run (decode (.commandWord s.cw)) { s with start := false } else .done s

/-- What the engine takes up next: reset before all (70_reset_and_hazards.md R230), then the wait in progress, since
operations do not overlap (10_state.md R20), then a new operation. -/
def fetch (s : State) : Fetched :=
  if s.rst then .done s.resetEvent
  else match s.waiting with
    | some _ => fetchEvent s
    | none => fetchCommand s

/-- A code placed where the next step takes it up: a command word in `CW`, started, with no wait in progress; a line at
the front of `RX`, inside a wait (the one in progress, or else one for id 0, side Left). -/
def State.placeCode (s : State) : Code → State
  | .commandWord w => { s with rst := false, waiting := none, cw := w, start := true }
  | .line bytes =>
    { s with rst := false, waiting := some (s.waiting.getD ⟨0, .left, false⟩), rx := .line bytes :: s.rx }

end Sys2Proof.Machine
end

