-- ==== Sys2Proof/Machine/Dispatch.lean ====
section
/-! DEFINITION. One arm for each row of spec/opcode_table.json. -/

namespace Sys2Proof.Machine

def exec (i : Instr) (s : State) : Host.Outcome State Fault Refusal :=
  match i with
  | .checksum ao sd c => Sys2Proof.Machine.execChecksum ao sd c s
  | .encode ao sd c => Sys2Proof.Machine.execEncode ao sd c s
  | .send ao sd c => Sys2Proof.Machine.execSend ao sd c s
  | .decode ao sd c => Sys2Proof.Machine.execDecode ao sd c s
  | .await ao sd c => Sys2Proof.Machine.execAwait ao sd c s
  | .fetch ao sd c => Sys2Proof.Machine.execFetch ao sd c s
  | .reservedOp6 ao sd c => Sys2Proof.Machine.execReservedOp6 ao sd c s
  | .reservedOp7 ao sd c => Sys2Proof.Machine.execReservedOp7 ao sd c s
  | .reservedBit8 op ao sd b c => Sys2Proof.Machine.execReservedBit8 op ao sd b c s
  | .reservedBit9 op ao sd c => Sys2Proof.Machine.execReservedBit9 op ao sd c s
  | .nack rest => Sys2Proof.Machine.execNack rest s
  | .ack rest => Sys2Proof.Machine.execAck rest s
  | .data body => Sys2Proof.Machine.execData body s
  | .malformed line => Sys2Proof.Machine.execMalformed line s

end Sys2Proof.Machine
end

