-- ==== Sys2Proof/Machine/Step.lean ====
section
/-! DEFINITION. One step of the engine: one host operation, one iteration of a wait, one reset, or nothing to do. -/

namespace Sys2Proof.Machine

/-- One step (10_state.md R20; log 1). -/
def step (s : State) : Host.Outcome State Fault Refusal :=
  match fetch s with
  | .run i s' => exec i s'
  | .done s' => .next s'

/-- The state with a table word placed where the next step takes its instruction (log 13, log 14). -/
def State.withFetchWord (s : State) (nbits w : Nat) : State := s.placeCode (Code.ofTableWord nbits w)

end Sys2Proof.Machine
end

