-- ==== Sys2Proof/Safety.lean ====
section
/-! DEFINITION. The terms the claims use: what a step leaves alone, the invariant of the engine, and the read loop of
AWAIT written as the spec writes it, over a table and a list of receive events. -/

namespace Sys2Proof.Safety

open Sys2Proof.Machine

/-! ## What is left alone -/

/-- Every entry of the table reads as before. -/
def TableSame (s t : State) : Prop := ∀ c : Byte, t.tabRead c = s.tabRead c

/-- Every entry but that of `c` reads as before. -/
def TableSameBut (c : Byte) (s t : State) : Prop := ∀ x : Byte, x ≠ c → t.tabRead x = s.tabRead x

/-- The operand latches and the two inputs of the host port are as before (10_state.md R18). -/
structure PortSame (s t : State) : Prop where
  cw : t.cw = s.cw
  opLen : t.opLen = s.opLen
  opBuf : t.opBuf = s.opBuf
  start : t.start = s.start
  rst : t.rst = s.rst

/-- Nothing but the result latches is written: table, streams and host port are as before. -/
structure OnlyResults (s t : State) : Prop where
  table : TableSame s t
  tx : t.tx = s.tx
  rx : t.rx = s.rx
  port : PortSame s t

/-- The result latches are as before (10_state.md R19). -/
structure ResultsSame (s t : State) : Prop where
  status : t.status = s.status
  hasPayload : t.hasPayload = s.hasPayload
  resKind : t.resKind = s.resKind
  resCmd : t.resCmd = s.resCmd
  resSide : t.resSide = s.resSide
  resCk : t.resCk = s.resCk
  resLen : t.resLen = s.resLen
  resByte : ∀ i, t.resByte i = s.resByte i

/-- The operation has ended with a status: no operation is in progress. -/
structure Ended (st : Status) (t : State) : Prop where
  status : t.status = st
  waiting : t.waiting = none

/-- `RES_LEN` is the length of these bytes and `RES_BUF[0 .. RES_LEN-1]` holds them, every byte that `RES_BUF[0..LINE_MAX-1]`
has a place for (10_state.md R19): all of them, but for the delimiter of a 777-byte frame at `LINE_MAX` = 776 (log 6). -/
structure BytesDelivered (bytes : List Byte) (t : State) : Prop where
  length : t.resLen.toNat = bytes.length
  byte : ∀ (i : Fin Config.lineMax) (h : i.val < bytes.length), t.resByte i = bytes[i.val]

/-- Every one of these bytes is in `RES_BUF[0..LINE_MAX-1]`, at its own index. -/
def HeldWhole (bytes : List Byte) (t : State) : Prop :=
  ∀ (i : Nat) (h : i < bytes.length), ∃ hi : i < Config.lineMax, t.resByte ⟨i, hi⟩ = bytes[i]

/-! ## The invariant -/

/-- A history of sent frames: the triples that were encoded (20_memory.md R39). -/
abbrev Sent := List (Byte × Side × List Byte)

/-- The bytes of a history of sent frames, each within the payload bound. -/
def IsFrames (bytes : List Byte) (sent : Sent) : Prop :=
  (∀ f ∈ sent, f.2.2.length ≤ Config.payloadMax) ∧ bytes = sent.flatMap (fun f => frame f.1 f.2.1 f.2.2)

/-- What every step keeps: the table is in canonical form, no buffered payload is longer than its store (10_state.md
R11), and `TX` is a sequence of whole frames (20_memory.md R39 item 2). -/
structure EngineInv (s : State) : Prop where
  table : s.mem.wf
  payloads : ∀ (c : Byte) (b : Buffered), (s.tabRead c).buf = some b → b.data.length ≤ Config.payloadMax
  frames : ∃ sent, IsFrames s.tx sent

/-! ## The read loop of AWAIT (43_correlator.md R152) -/

/-- Where the loop stands when it ends or has no more events: the table, the events not consumed, and the status with
the latches it defines, or none while it still waits. -/
structure LoopEnd where
  mem : Memory
  rx : List Event
  outcome : Option (Status × Results)

/-- The loop of R152 with the bodies of R153 to R158, R160 and R161, one receive event an iteration. -/
def readLoop (w : Waiting) (m : Memory) : List Event → LoopEnd
  | [] => ⟨m, [], none⟩
  | .timeout :: rest => ⟨m.write w.cmd.toNat Entry.idle, rest, some (.responseTimeout, {})⟩
  | .line bytes :: rest =>
    match decodeFrame bytes with
    | .error e => ⟨m, rest, some (e, {})⟩
    | .nack => ⟨m.write w.cmd.toNat Entry.idle, rest, some (.commandRejected, {})⟩
    | .ack =>
      match (m.read w.cmd.toNat).buf with
      | some b =>
        if b.side = w.side then
          ⟨m.write w.cmd.toNat Entry.idle, rest,
            some (.ok, { hasPayload := some true, side := some (sideCode b.side), bytes := some b.data })⟩
        else ⟨m.write w.cmd.toNat Entry.idle, rest, some (.channelMismatch, {})⟩
      | none =>
        if w.ackOnly then ⟨m.write w.cmd.toNat Entry.idle, rest, some (.ok, { hasPayload := some false })⟩
        else readLoop w m rest
    | .data f =>
      readLoop w (m.write f.cmd.toNat { m.read f.cmd.toNat with buf := some ⟨f.side, f.payload⟩ }) rest

/-- The state with another table and other receive events. -/
def withTableAndEvents (s : State) (m : Memory) (rx : List Event) : State := { s with mem := m, rx := rx }

/-- The state in which the loop leaves the engine: the operation ended with what it defines, or still in progress. -/
def afterLoop (s : State) (e : LoopEnd) : State :=
  match e.outcome with
  | none => withTableAndEvents s e.mem e.rx
  | some (st, r) => (withTableAndEvents s e.mem e.rx).finish st r

/-! ## Wire text as the spec writes it -/

/-- `"0123456789ABCDEF"` (30_encoding.md R64). -/
def hexDigits : List Byte :=
  [0x30, 0x31, 0x32, 0x33, 0x34, 0x35, 0x36, 0x37, 0x38, 0x39, 0x41, 0x42, 0x43, 0x44, 0x45, 0x46]

/-- Digit `n` of that string. -/
def digit (n : Nat) : Byte := hexDigits.getD n 0

/-- The character of a side: Left `0`, Right `1`, Both `2` (30_encoding.md R54). -/
def sideText : Side → Byte
  | .left => 0x30
  | .right => 0x31
  | .both => 0x32

/-- A field of exactly two hex digits (30_encoding.md R53, R56). -/
def TwoDigits (field : List Byte) : Prop := field.length = 2 ∧ ∀ ch ∈ field, isHex ch = true

/-- A received Data line from its parts: CMD, SIDE, LEN, the payload tokens, and the two checksum digits
(30_encoding.md R52). -/
def lineRegion (c1 c2 side : Byte) (len : List Byte) (tokens : List (Byte × Byte)) : List Byte :=
  [Config.headMarker, c1, c2, Config.separator, side, Config.separator] ++ len
    ++ tokens.flatMap (fun p => [Config.separator, p.1, p.2]) ++ [Config.separator]

/-- A word of the command port that is reserved: operation code 6 or 7, or a reserved bit set (30_encoding.md R68). -/
def ReservedWord (w : CommandWord) : Prop :=
  w.toNat / 2 ^ 13 = 6 ∨ w.toNat / 2 ^ 13 = 7 ∨ w.getLsbD 9 = true ∨ w.getLsbD 8 = true

/-! ## States that differ in the recorded expected sides only (43_correlator.md R164) -/

/-- The entry without the side recorded when its command was sent. -/
def forgetExpSide (e : Entry) : Bool × Option Buffered := (e.pending.isSome, e.buf)

/-- Two states that differ at most in `T[c].exp_side`. -/
structure SameButExpSides (s t : State) : Prop where
  entries : ∀ c : Byte, forgetExpSide (t.tabRead c) = forgetExpSide (s.tabRead c)
  rest : t = { s with mem := t.mem }

end Sys2Proof.Safety
end

