-- ==== Sys2Proof/Certificates/Slice0/Obligations.lean ====
section
/-! DEFINITION. The statements about the engine, one `Obligations.<Name> : Prop` each, from the numbered rules of spec/.
Where a statement speaks of a next state, its conclusion is that `exec` or `step` answers one. -/

open Sys2Proof Sys2Proof.Machine Sys2Proof.Safety

/-! ## Encodings -/

/-- Words and lines written out from the layouts of 30_encoding.md R67 and R62 decode to the rows they stand for: the
command words of vectors V21, V23, V50, V54, V57, V61, V63 and P9, and the lines of V28, V29c, V29, V32 (30_encoding.md
sections 1, 3 and 6). -/
def Obligations.WrittenOutCodesDecode : Prop :=
  decode (.commandWord 0x0000) = .checksum false 0 0x00 ∧
  decode (.commandWord 0x2054) = .encode false 0 0x54 ∧
  decode (.commandWord 0x2800) = .encode false 2 0x00 ∧
  decode (.commandWord 0x4455) = .send false 1 0x55 ∧
  decode (.commandWord 0x6000) = .decode false 0 0x00 ∧
  decode (.commandWord 0x8C55) = .await false 3 0x55 ∧
  decode (.commandWord 0x9455) = .await true 1 0x55 ∧
  decode (.commandWord 0xA023) = .fetch false 0 0x23 ∧
  decode (.commandWord 0xC000) = .reservedOp6 false 0 0x00 ∧
  decode (.commandWord 0xE000) = .reservedOp7 false 0 0x00 ∧
  decode (.commandWord 0x4155) = .reservedBit8 2 false 0 false 0x55 ∧
  decode (.commandWord 0x8255) = .reservedBit9 4 false 0 0x55 ∧
  decode (.line [0x23, 0x4E, 0x34]) = .nack [0x34] ∧
  decode (.line [0x23, 0x41]) = .ack [] ∧
  decode (.line [0x23, 0x35, 0x34]) = .data [0x35, 0x34] ∧
  decode (.line [0x23]) = .data [] ∧
  decode (.line [0x24, 0x35]) = .malformed [0x24, 0x35] ∧
  decode (.line []) = .malformed []

/-- Decoding the code of a well-formed instruction gives the instruction back, with every operand at every value: no bit of
a command word and no byte of a line is dropped. Which of two reserved rows a word that falls under both stands for is the
model's choice (log 12). -/
def Obligations.DecodeOfEncode : Prop :=
  ∀ i : Instr, wellFormed i = true → decode (encode i) = i

/-- Every code stands for exactly one well-formed instruction: the decoder is total, and encoding what it reads gives the
code back. -/
def Obligations.EncodeOfDecode : Prop :=
  ∀ c : Code, wellFormed (decode c) = true ∧ encode (decode c) = c

/-! ## One step -/

/-- With no reset and no wait in progress, a step takes up the operation the host has started and runs the instruction that
`CW` decodes to; the start is taken with it (log 2). -/
def Obligations.StepRunsStartedCommand : Prop :=
  ∀ s : State, s.rst = false → s.waiting = none → s.start = true →
    step s = exec (decode (.commandWord s.cw)) { s with start := false }

/-- With no reset and a wait in progress, a step takes the next receive event; a line runs the instruction it decodes to, and
has been consumed from `RX` (43_correlator.md R152, 10_state.md R17). -/
def Obligations.StepRunsReceivedLine : Prop :=
  ∀ (s : State) (w : Waiting) (bytes : List Byte) (rest : List Event),
    s.rst = false → s.waiting = some w → s.rx = .line bytes :: rest →
    step s = exec (decode (.line bytes)) { s with rx := rest }

/-- A step with nothing to do changes nothing: no operation started and none in progress (10_state.md R20), or a wait whose
transport has not answered yet (60_exceptions.md R204; that an empty list of events stands for this is log 3). -/
def Obligations.StepIdleOrBlocked : Prop :=
  ∀ s : State, s.rst = false →
    (s.waiting = none ∧ s.start = false ∨ s.waiting ≠ none ∧ s.rx = []) → step s = .next s

/-- A timeout in a wait (43_correlator.md R153): the record of the awaited id is destroyed with its buffered payload, other
entries stay, the event is consumed and later events stay in `RX`, the wait ends with `ResponseTimeout`. -/
def Obligations.TimeoutEndsWait : Prop :=
  ∀ (s : State) (w : Waiting) (rest : List Event),
    EngineInv s → s.rst = false → s.waiting = some w → s.rx = .timeout :: rest →
    ∃ t, step s = .next t ∧ Ended .responseTimeout t ∧ t.tabRead w.cmd = Entry.idle ∧ TableSameBut w.cmd s t ∧
      t.rx = rest ∧ t.tx = s.tx ∧ PortSame s t

/-- A reset (70_reset_and_hazards.md R230, 10_state.md R27): from any state, an operation in progress among them, every
entry is Idle, `TX` is empty, `STATUS` is `OK`, `HAS_PAYLOAD` is 0, nothing is in progress, and the receive events are untouched
(R231). The model's choice: the reset input is a field of the state, a step takes it before all else, and the reset clears both
inputs of the host port (log 2); the history `TX` starts again at empty (log 5). -/
def Obligations.ResetEventState : Prop :=
  ∀ s : State, s.rst = true →
    ∃ t, step s = .next t ∧ (∀ c : Byte, t.tabRead c = Entry.idle) ∧ t.tx = [] ∧ Ended .ok t ∧ t.hasPayload = false ∧
      t.rx = s.rx ∧ t.start = false ∧ t.rst = false

/-- The state right after reset: what 10_state.md R27 gives it, and the invariant. -/
def Obligations.ResetStateHolds : Prop :=
  (∀ c : Byte, State.reset.tabRead c = Entry.idle) ∧ State.reset.tx = [] ∧ State.reset.statusCode = 0x0 ∧
  State.reset.hasPayload = false ∧ State.reset.waiting = none ∧ EngineInv State.reset

/-! ## The Checksum Engine -/

/-- CHECKSUM (40_checksum.md R86, R84): `STATUS` = `OK` and `RES_CK` = `CHECKSUM(OP_BUF[0..OP_LEN-1])`, the low byte of the
operand's CRC, for every operand; table, streams and host port are untouched; an empty operand gives 0x00 and leading 0x00
bytes change nothing; the example of the rule, its CRC and its checksum. -/
def Obligations.ChecksumCompletes : Prop :=
  (∀ (ao : Bool) (sd : BitVec 2) (c : Byte) (s : State),
    ∃ t, exec (.checksum ao sd c) s = .next t ∧ Ended .ok t ∧ t.resCk = checksum s.operand ∧
      t.resCk.toNat = (crc16 s.operand).toNat % 256 ∧ OnlyResults s t ∧
      (s.opLen.val = 0 → t.resCk = 0x00) ∧
      (∀ n rest, s.operand = List.replicate n 0x00 ++ rest → t.resCk = checksum rest)) ∧
  crc16 [0x23, 0x35, 0x34, 0x2C, 0x30, 0x2C, 0x36, 0x2C, 0x43, 0x38, 0x2C, 0x30, 0x30, 0x2C, 0x43, 0x38, 0x2C, 0x30, 0x30,
    0x2C, 0x43, 0x38, 0x2C, 0x30, 0x30, 0x2C] = 0x6F76 ∧
  checksum [0x23, 0x35, 0x34, 0x2C, 0x30, 0x2C, 0x36, 0x2C, 0x43, 0x38, 0x2C, 0x30, 0x30, 0x2C, 0x43, 0x38, 0x2C, 0x30, 0x30,
    0x2C, 0x43, 0x38, 0x2C, 0x30, 0x30, 0x2C] = 0x76

/-- The check value of 40_checksum.md R80 (vector V1) and the values of vectors V2, V5 to V9. -/
def Obligations.CrcCheckValues : Prop :=
  crc16 [0x31, 0x32, 0x33, 0x34, 0x35, 0x36, 0x37, 0x38, 0x39] = 0x31C3 ∧ crc16 [] = 0x0000 ∧ crc16 [0x01] = 0x1021 ∧
  crc16 [0x80] = 0x9188 ∧ crc16 [0xFF] = 0x1EF0 ∧ crc16 [0x41] = 0x58E5 ∧ crc16 [0x23] = 0x1401

/-- The bitwise exclusive-or of two byte sequences. -/
def xorBytes (a b : List Byte) : List Byte := List.zipWith (· ^^^ ·) a b

/-- Linearity of the CRC and of the checksum over sequences of equal length (40_checksum.md R89 item 1). -/
def Obligations.CrcLinear : Prop :=
  ∀ a b : List Byte, a.length = b.length →
    crc16 (xorBytes a b) = crc16 a ^^^ crc16 b ∧ checksum (xorBytes a b) = checksum a ^^^ checksum b

/-- Which single-byte changes the checksum does not see (40_checksum.md R90): a change by `e` with `m` bytes after it is
undetected exactly when the checksum of `e` and `m` zero bytes is 0; for `m` = 18 it holds of 0x03, 0x05 and 0x06. -/
def Obligations.UndetectedByteChange : Prop :=
  (∀ (before after : List Byte) (b e : Byte),
    checksum (before ++ (b ^^^ e) :: after) = checksum (before ++ b :: after) ↔
      checksum (e :: List.replicate after.length 0x00) = 0x00) ∧
  (∀ e ∈ [0x03#8, 0x05#8, 0x06#8], checksum (e :: List.replicate 18 0x00) = 0x00)

/-- The table form of a byte step (40_checksum.md R83), with the entries the rule lists, `TAB[n] = crc_step(0, n)`. -/
def Obligations.CrcTableForm : Prop :=
  (∀ (crc : CrcWord) (b : Byte), crcStep crc b = (crc <<< 8) ^^^ crcStep 0 ((crc >>> 8).setWidth 8 ^^^ b)) ∧
  crcStep 0 0x00 = 0x0000 ∧ crcStep 0 0x01 = 0x1021 ∧ crcStep 0 0x80 = 0x9188 ∧ crcStep 0 0xFF = 0x1EF0

/-- The polynomial over GF(2) of a 16-bit register, bit `i` the coefficient of `x^i` (40_checksum.md R83). -/
noncomputable def wordPoly (w : CrcWord) : Polynomial (ZMod 2) :=
  (Finset.range 16).sum (fun i => if w.getLsbD i then (Polynomial.X : Polynomial (ZMod 2)) ^ i else 0)

/-- The polynomial of one byte. -/
noncomputable def bytePoly (b : Byte) : Polynomial (ZMod 2) :=
  (Finset.range 8).sum (fun i => if b.getLsbD i then (Polynomial.X : Polynomial (ZMod 2)) ^ i else 0)

/-- The polynomial of a byte sequence, the first byte's bit 7 the highest coefficient. -/
noncomputable def bytesPoly (s : List Byte) : Polynomial (ZMod 2) :=
  s.foldl (fun p b => p * Polynomial.X ^ 8 + bytePoly b) 0

/-- The CRC is the remainder of `S(x) * x^16` by `G(x) = x^16 + x^12 + x^5 + 1` over GF(2) (40_checksum.md R83). -/
def Obligations.CrcIsPolynomialRemainder : Prop :=
  ∀ s : List Byte,
    wordPoly (crc16 s) = (bytesPoly s * Polynomial.X ^ 16) %ₘ
      (Polynomial.X ^ 16 + Polynomial.X ^ 12 + Polynomial.X ^ 5 + 1)

/-! ## Frame Codec, encode side -/

/-- The canonical frame, byte by byte at the offsets of 30_encoding.md R52, for every command id, side and payload of at most
255 bytes; `L` is the payload's length, `d` the number of its hex digits, and the digits are those of
"0123456789ABCDEF". -/
def Obligations.FrameLayout : Prop :=
  ∀ (cmd : Byte) (side : Side) (payload : List Byte), payload.length ≤ 255 →
    let F : List Byte := frame cmd side payload
    let L : Nat := payload.length
    let d : Nat := if L ≤ 15 then 1 else 2
    F.length = 10 + d + 3 * L ∧
    F[0]? = some 0x23 ∧ F[1]? = some (digit (cmd.toNat / 16)) ∧ F[2]? = some (digit (cmd.toNat % 16)) ∧
    F[3]? = some 0x2C ∧ F[4]? = some (sideText side) ∧ F[5]? = some 0x2C ∧
    (L ≤ 15 → F[6]? = some (digit L)) ∧
    (16 ≤ L → F[6]? = some (digit (L / 16)) ∧ F[7]? = some (digit (L % 16))) ∧
    (∀ (i : Nat) (h : i < L),
      F[6 + d + 3 * i]? = some 0x2C ∧ F[6 + d + 3 * i + 1]? = some (digit (payload[i].toNat / 16)) ∧
      F[6 + d + 3 * i + 2]? = some (digit (payload[i].toNat % 16))) ∧
    F[6 + d + 3 * L]? = some 0x2C ∧
    F[7 + d + 3 * L]? = some (digit ((checksum (F.take (7 + d + 3 * L))).toNat / 16)) ∧
    F[8 + d + 3 * L]? = some (digit ((checksum (F.take (7 + d + 3 * L))).toNat % 16)) ∧
    F[9 + d + 3 * L]? = some 0x00

/-- A frame is its line and one null byte, and the line holds nothing but `#`, commas and upper-case hex digits: no null byte,
no space, no lower-case letter (30_encoding.md R50, R59). -/
def Obligations.FrameTextCanonical : Prop :=
  ∀ (cmd : Byte) (side : Side) (payload : List Byte),
    frame cmd side payload = frameLine cmd side payload ++ [0x00] ∧
    ∀ b ∈ frameLine cmd side payload, b = 0x23 ∨ b = 0x2C ∨ b ∈ hexDigits

/-- ENCODE with good operands (41_encode.md R100): `STATUS` = `OK`, `RES_LEN` is the length of the frame with its delimiter and
`RES_BUF` holds the frame, each byte it has a place for (10_state.md R19; which one lacks it at `LINE_MAX` = 776 is log 6, see
`ResultLatchesHoldResults`); nothing else is touched. -/
def Obligations.EncodeCompletes : Prop :=
  ∀ (ao : Bool) (sd : BitVec 2) (c : Byte) (s : State) (side : Side),
    sideOf sd = some side → s.operand.length ≤ 255 →
    ∃ t, exec (.encode ao sd c) s = .next t ∧ Ended .ok t ∧ BytesDelivered (frame c side s.operand) t ∧ OnlyResults s t

/-- ENCODE and SEND with side 3 or a payload of more than 255 bytes (41_encode.md R102): `EncodingError` before anything is
written; these are the checks the 8-bit latches leave reachable. -/
def Obligations.BadOperandsRefused : Prop :=
  ∀ (ao : Bool) (sd : BitVec 2) (c : Byte) (s : State), (sd = 3 ∨ 255 < s.operand.length) →
    (∃ t, exec (.encode ao sd c) s = .next t ∧ Ended .encodingError t ∧ OnlyResults s t) ∧
    (∃ t, exec (.send ao sd c) s = .next t ∧ Ended .encodingError t ∧ OnlyResults s t)

/-- SEND with good operands to an id that is not pending (41_encode.md R104, R106): the frame is appended to `TX`, the entry
becomes Sent with the expected side and no buffered payload, an Orphan's payload among them; other entries and `RX` stay;
`RES_LEN` is the frame's length and `RES_BUF` holds the frame, each byte it has a place for (10_state.md R19;
log 6, `ResultLatchesHoldResults`). -/
def Obligations.SendCompletes : Prop :=
  ∀ (ao : Bool) (sd : BitVec 2) (c : Byte) (s : State) (side : Side),
    sideOf sd = some side → s.operand.length ≤ 255 → (s.tabRead c).pending = none →
    ∃ t, exec (.send ao sd c) s = .next t ∧ Ended .ok t ∧ t.tx = s.tx ++ frame c side s.operand ∧
      t.tabRead c = ⟨some side, none⟩ ∧ TableSameBut c s t ∧ t.rx = s.rx ∧ PortSame s t ∧
      BytesDelivered (frame c side s.operand) t

/-- SEND with good operands to an id that is pending (41_encode.md R105): `Busy`, nothing written to `TX`, the table
unchanged. The rule asks that no claim about the device rest on this answer (log 11). -/
def Obligations.SendWhilePendingIsBusy : Prop :=
  ∀ (ao : Bool) (sd : BitVec 2) (c : Byte) (s : State) (side : Side),
    sideOf sd = some side → s.operand.length ≤ 255 → (s.tabRead c).pending ≠ none →
    ∃ t, exec (.send ao sd c) s = .next t ∧ Ended .busy t ∧ OnlyResults s t

/-! ## Frame Codec, decode side -/

/-- The first checks of the decoder (42_decode.md R121, R122, R123), for a line that fits the line buffer: an empty line or a
first byte that is not `#` is malformed, `#N` is a Nack and `#A` an Ack, whatever follows. -/
def Obligations.LineKinds : Prop :=
  (decodeFrame [] = .error .malformedFrame) ∧
  (∀ (h : Byte) (t : List Byte), h ≠ 0x23 → decodeFrame (h :: t) = .error .malformedFrame) ∧
  (∀ rest : List Byte, rest.length + 2 ≤ Config.lineMax → decodeFrame (0x23 :: 0x4E :: rest) = .nack) ∧
  (∀ rest : List Byte, rest.length + 2 ≤ Config.lineMax → decodeFrame (0x23 :: 0x41 :: rest) = .ack)

/-- A line longer than `LINE_MAX` is malformed whatever its first characters, and no canonical frame is that long
(42_decode.md R136). -/
def Obligations.OverlongLineMalformed : Prop :=
  (∀ line : List Byte, Config.lineMax < line.length → decodeFrame line = .error .malformedFrame) ∧
  (∀ (cmd : Byte) (side : Side) (payload : List Byte), payload.length ≤ 255 →
    (frameLine cmd side payload).length ≤ 776 ∧ (frameLine cmd side payload).length ≤ Config.lineMax)

/-- The checksum comes before the fields (42_decode.md R125, R126, R128): a Data line with no comma is malformed; one whose
text after its last comma is not exactly two hex digits is malformed; one whose checksum differs is a `ChecksumError`,
whatever its other fields; one whose checksum is right is a Data frame or malformed, and no `ChecksumError`. Which of the two
it is, by its fields, is `FieldFailuresMalformed`. -/
def Obligations.ChecksumBeforeFields : Prop :=
  ∀ body : List Byte, body.length + 1 ≤ Config.lineMax → body.head? ≠ some 0x4E → body.head? ≠ some 0x41 →
    (0x2C ∉ body → decodeFrame (0x23 :: body) = .error .malformedFrame) ∧
    (∀ before ck : List Byte, body = before ++ 0x2C :: ck → 0x2C ∉ ck →
      (¬ (∃ a b, ck = [a, b] ∧ isHex a = true ∧ isHex b = true) → decodeFrame (0x23 :: body) = .error .malformedFrame) ∧
      (∀ a b, ck = [a, b] → isHex a = true → isHex b = true →
        (checksum (0x23 :: (before ++ [0x2C]))).toNat ≠ 16 * hexVal a + hexVal b →
        decodeFrame (0x23 :: body) = .error .checksumError) ∧
      (∀ a b, ck = [a, b] → isHex a = true → isHex b = true →
        (checksum (0x23 :: (before ++ [0x2C]))).toNat = 16 * hexVal a + hexVal b →
        (∃ f, decodeFrame (0x23 :: body) = .data f) ∨ decodeFrame (0x23 :: body) = .error .malformedFrame))

/-- The lines the decoder takes as Data are exactly those of the grammar (42_decode.md R129 to R133 and R137 item 3): within
`LINE_MAX`, two digits of CMD (the first not `A`), one of the three side characters, a LEN of one or more digits with the
value of the number of payload tokens and at most 255, each token two digits, and two checksum digits with the value of the
checksum of the bytes through the last comma; digits of either case. The frame holds the values of the fields. -/
def Obligations.DataLinesExactly : Prop :=
  ∀ (line : List Byte) (f : Frame), decodeFrame line = .data f ↔
    ∃ (c1 c2 k1 k2 : Byte) (len : List Byte) (tokens : List (Byte × Byte)),
      line = lineRegion c1 c2 (sideChar f.side) len tokens ++ [k1, k2] ∧ line.length ≤ Config.lineMax ∧
      c1 ≠ 0x41 ∧ isHex c1 = true ∧ isHex c2 = true ∧ f.cmd.toNat = 16 * hexVal c1 + hexVal c2 ∧
      len ≠ [] ∧ (∀ ch ∈ len, isHex ch = true) ∧ hexNum len = tokens.length ∧ tokens.length ≤ 255 ∧
      (∀ p ∈ tokens, isHex p.1 = true ∧ isHex p.2 = true) ∧
      f.payload.map BitVec.toNat = tokens.map (fun p => 16 * hexVal p.1 + hexVal p.2) ∧
      isHex k1 = true ∧ isHex k2 = true ∧ f.checksum.toNat = 16 * hexVal k1 + hexVal k2 ∧
      checksum (lineRegion c1 c2 (sideChar f.side) len tokens) = f.checksum

/-- Decoding an encoded frame (42_decode.md R137 item 1): for every command id, side and payload of at most 255 bytes, the
frame without its delimiter decodes to the same triple and the checksum of its region, but for ids 0xA0 to 0xAF, which decode
to an Ack. -/
def Obligations.DecodeOfEncodedFrame : Prop :=
  ∀ (cmd : Byte) (side : Side) (payload : List Byte), payload.length ≤ 255 →
    decodeFrame (frame cmd side payload).dropLast =
      if 0xA0 ≤ cmd.toNat ∧ cmd.toNat ≤ 0xAF then .ack
      else .data ⟨cmd, side, payload, checksum (frameRegion cmd side payload)⟩

/-- The hex helpers as 30_encoding.md R64 defines them: `ishex` holds of the characters of its three ranges and of no other;
`hexval` by range; `hexnum` is 0 on no digits and otherwise sixteen times the value of the digits before the last plus the last
digit's, for sequences of any length and not truncated; `HEXDIG`, `HEX2` and `HEXN` write digits of "0123456789ABCDEF"; and a
byte that is written is read back. -/
def Obligations.HexRoundTrip : Prop :=
  (∀ ch : Byte, isHex ch = true ↔
    (0x30 ≤ ch.toNat ∧ ch.toNat ≤ 0x39) ∨ (0x41 ≤ ch.toNat ∧ ch.toNat ≤ 0x46) ∨ (0x61 ≤ ch.toNat ∧ ch.toNat ≤ 0x66)) ∧
  (∀ ch : Byte,
    (0x30 ≤ ch.toNat ∧ ch.toNat ≤ 0x39 → hexVal ch = ch.toNat - 0x30) ∧
    (0x41 ≤ ch.toNat ∧ ch.toNat ≤ 0x46 → hexVal ch = ch.toNat - 0x41 + 10) ∧
    (0x61 ≤ ch.toNat ∧ ch.toNat ≤ 0x66 → hexVal ch = ch.toNat - 0x61 + 10)) ∧
  hexNum [] = 0 ∧
  (∀ (digits : List Byte) (ch : Byte), hexNum (digits ++ [ch]) = 16 * hexNum digits + hexVal ch) ∧
  (∀ n : BitVec 4, hexDig n = digit n.toNat) ∧
  (∀ v : Byte, hex2 v = [digit (v.toNat / 16), digit (v.toNat % 16)]) ∧
  (∀ v : Byte, (v.toNat ≤ 15 → hexN v = [digit v.toNat]) ∧
    (16 ≤ v.toNat → hexN v = [digit (v.toNat / 16), digit (v.toNat % 16)])) ∧
  (∀ v : Byte, hexNum (hex2 v) = v.toNat ∧ hexNum (hexN v) = v.toNat ∧ hexByte? (hex2 v) = some v)

/-- DECODE (42_decode.md R134): the result of the decoder for the operand, in the latches the rule defines for each outcome;
table, streams and host port untouched; and the example of the rule. -/
def Obligations.DecodeCompletes : Prop :=
  (∀ (ao : Bool) (sd : BitVec 2) (c : Byte) (s : State),
    ∃ t, exec (.decode ao sd c) s = .next t ∧ t.waiting = none ∧ OnlyResults s t ∧
      (∀ f, decodeFrame s.operand = .data f →
        t.status = .ok ∧ t.resKind = 0 ∧ t.resCmd = f.cmd ∧ t.resSide = sideCode f.side ∧ BytesDelivered f.payload t ∧
        t.resCk = f.checksum ∧ t.hasPayload = true) ∧
      (decodeFrame s.operand = .ack → t.status = .ok ∧ t.resKind = 1 ∧ t.hasPayload = false) ∧
      (decodeFrame s.operand = .nack → t.status = .commandRejected ∧ t.resKind = 2) ∧
      (∀ e, decodeFrame s.operand = .error e → t.status = e ∧ (e = .malformedFrame ∨ e = .checksumError))) ∧
  decodeFrame [0x23, 0x35, 0x34, 0x2C, 0x30, 0x2C, 0x36, 0x2C, 0x43, 0x38, 0x2C, 0x30, 0x30, 0x2C, 0x43, 0x38, 0x2C, 0x30, 0x30,
    0x2C, 0x43, 0x38, 0x2C, 0x30, 0x30, 0x2C, 0x37, 0x36] = .data ⟨0x54, .left, [0xC8, 0x00, 0xC8, 0x00, 0xC8, 0x00], 0x76⟩

/-! ## Transaction Correlator -/

/-- AWAIT with a legal side begins a wait for its operands (43_correlator.md R151, R164): no record is required, the buffer is
not looked at, nothing is consumed or written, and the result latches hold until the wait ends. That the loop then takes one
step for each receive event is the model's choice (log 1); what it does is `AwaitRunsReadLoop`. -/
def Obligations.AwaitBegins : Prop :=
  ∀ (ao : Bool) (sd : BitVec 2) (c : Byte) (s : State) (side : Side), sideOf sd = some side →
    ∃ t, exec (.await ao sd c) s = .next t ∧ t.waiting = some ⟨c, side, ao⟩ ∧ OnlyResults s t ∧ ResultsSame s t

/-- AWAIT with side 3 (43_correlator.md R163): `EncodingError` before any receive event is consumed, the table unchanged. -/
def Obligations.AwaitRefusesSideThree : Prop :=
  ∀ (ao : Bool) (c : Byte) (s : State),
    ∃ t, exec (.await ao 3 c) s = .next t ∧ Ended .encodingError t ∧ OnlyResults s t

/-- A Nack in a wait (43_correlator.md R155), whatever follows `#N`: the awaited entry is Idle, the others keep their state,
the wait ends with `CommandRejected`. -/
def Obligations.NackEndsWait : Prop :=
  ∀ (s : State) (w : Waiting) (rest : List Byte), EngineInv s → s.waiting = some w →
    ∃ t, exec (.nack rest) s = .next t ∧ Ended .commandRejected t ∧ t.tabRead w.cmd = Entry.idle ∧
      TableSameBut w.cmd s t ∧ t.tx = s.tx ∧ t.rx = s.rx ∧ PortSame s t

/-- An Ack in a wait whose id has a buffered payload (43_correlator.md R156): the entry is consumed; with the expected side the
payload is returned with its side, whether or not `ack_only` is set, and with another side the wait ends with
`ChannelMismatch`. -/
def Obligations.AckWithBufferedPayload : Prop :=
  ∀ (s : State) (w : Waiting) (rest : List Byte) (b : Buffered),
    EngineInv s → s.waiting = some w → (s.tabRead w.cmd).buf = some b →
    ∃ t, exec (.ack rest) s = .next t ∧ t.waiting = none ∧ t.tabRead w.cmd = Entry.idle ∧ TableSameBut w.cmd s t ∧
      t.tx = s.tx ∧ t.rx = s.rx ∧ PortSame s t ∧
      (b.side = w.side → t.status = .ok ∧ t.hasPayload = true ∧ t.resSide = sideCode b.side ∧ BytesDelivered b.data t) ∧
      (b.side ≠ w.side → t.status = .channelMismatch)

/-- An Ack in a wait whose id has nothing buffered: with `ack_only` it ends the wait with no payload and the record is gone
(43_correlator.md R157); without it the wait goes on and nothing changes (R158). -/
def Obligations.AckWithNothingBuffered : Prop :=
  ∀ (s : State) (w : Waiting) (rest : List Byte),
    EngineInv s → s.waiting = some w → (s.tabRead w.cmd).buf = none →
    (w.ackOnly = true →
      ∃ t, exec (.ack rest) s = .next t ∧ Ended .ok t ∧ t.hasPayload = false ∧ t.tabRead w.cmd = Entry.idle ∧
        TableSameBut w.cmd s t ∧ t.tx = s.tx ∧ t.rx = s.rx ∧ PortSame s t) ∧
    (w.ackOnly = false → exec (.ack rest) s = .next s)

/-- A good Data line in a wait (43_correlator.md R160, R161, R162): stored in the entry of its own id, whatever is awaited and
whatever that entry held, `pending` and `exp_side` kept; the wait goes on and no result latch is written. -/
def Obligations.DataFrameStored : Prop :=
  ∀ (s : State) (w : Waiting) (body : List Byte) (f : Frame), s.waiting = some w → parseData body = .ok f →
    ∃ t, exec (.data body) s = .next t ∧ t.waiting = some w ∧
      t.tabRead f.cmd = ⟨(s.tabRead f.cmd).pending, some ⟨f.side, f.payload⟩⟩ ∧ TableSameBut f.cmd s t ∧
      t.tx = s.tx ∧ t.rx = s.rx ∧ PortSame s t ∧ ResultsSame s t

/-- A line that does not decode ends the wait with the decoder's error and leaves the whole table as it was
(43_correlator.md R154): a Data line that fails a check, or any other malformed line. -/
def Obligations.BadLineEndsWait : Prop :=
  (∀ (s : State) (w : Waiting) (body : List Byte) (e : Status), s.waiting = some w → parseData body = .error e →
    (e = .malformedFrame ∨ e = .checksumError) ∧
    ∃ t, exec (.data body) s = .next t ∧ Ended e t ∧ OnlyResults s t) ∧
  (∀ (s : State) (w : Waiting) (line : List Byte), s.waiting = some w →
    ∃ t, exec (.malformed line) s = .next t ∧ Ended .malformedFrame t ∧ OnlyResults s t)

/-- FETCH (43_correlator.md R165): a buffered payload is returned with its side and the entry is Idle; with none, no payload
is returned and the table is unchanged. `CW.side` and `CW.ack_only` are ignored, no receive event is consumed. -/
def Obligations.FetchCompletes : Prop :=
  ∀ (ao : Bool) (sd : BitVec 2) (c : Byte) (s : State), EngineInv s →
    (∀ b, (s.tabRead c).buf = some b →
      ∃ t, exec (.fetch ao sd c) s = .next t ∧ Ended .ok t ∧ t.hasPayload = true ∧ t.resSide = sideCode b.side ∧
        BytesDelivered b.data t ∧ t.tabRead c = Entry.idle ∧ TableSameBut c s t ∧ t.tx = s.tx ∧ t.rx = s.rx ∧ PortSame s t) ∧
    ((s.tabRead c).buf = none →
      ∃ t, exec (.fetch ao sd c) s = .next t ∧ Ended .ok t ∧ t.hasPayload = false ∧ OnlyResults s t)

/-! ## Reserved command words -/

/-- The reserved rows (30_encoding.md R68): the operation ends with `IllegalOp`, nothing is written to `TX`, nothing is consumed
from `RX`, table and operand latches stay. That a reserved word runs to this answer is the model's choice (log 11): R68 and R197
ask a model to treat it as a refusal and to let no claim about the device depend on the code. The other result latches are left
open, as 10_state.md R19 asks (log 4). -/
def Obligations.ReservedRowsAnswerIllegalOp : Prop :=
  ∀ (op : BitVec 3) (ao : Bool) (sd : BitVec 2) (b9 : Bool) (c : Byte) (s : State),
    (∃ t, exec (.reservedOp6 ao sd c) s = .next t ∧ Ended .illegalOp t ∧ OnlyResults s t) ∧
    (∃ t, exec (.reservedOp7 ao sd c) s = .next t ∧ Ended .illegalOp t ∧ OnlyResults s t) ∧
    (∃ t, exec (.reservedBit8 op ao sd b9 c) s = .next t ∧ Ended .illegalOp t ∧ OnlyResults s t) ∧
    (∃ t, exec (.reservedBit9 op ao sd c) s = .next t ∧ Ended .illegalOp t ∧ OnlyResults s t)

/-- `IllegalOp` before everything else (60_exceptions.md R199, 30_encoding.md R68): a started command word with a reserved
operation code or a reserved bit set ends at once with it, whatever its other fields; and a word that is not reserved never
does. That a reserved word runs to this answer is the model's choice (log 11): R68 and R197 ask a model to treat it as a refusal
and to let no claim about the device depend on the code. The start input is log 2's. -/
def Obligations.ReservedWordsOnly : Prop :=
  ∀ s : State, s.rst = false → s.waiting = none → s.start = true →
    (ReservedWord s.cw →
      ∃ t, step s = .next t ∧ Ended .illegalOp t ∧ TableSame s t ∧ t.tx = s.tx ∧ t.rx = s.rx ∧ t.cw = s.cw) ∧
    (¬ ReservedWord s.cw → s.status ≠ .illegalOp → ∃ t, step s = .next t ∧ t.status ≠ .illegalOp)

/-- Fields an operation does not read are ignored by it (30_encoding.md R67): CHECKSUM and DECODE read none, FETCH the command
id, ENCODE and SEND not `ack_only`. -/
def Obligations.UnreadFieldsIgnored : Prop :=
  ∀ (ao ao' : Bool) (sd sd' : BitVec 2) (c c' : Byte) (s : State),
    exec (.checksum ao sd c) s = exec (.checksum ao' sd' c') s ∧ exec (.decode ao sd c) s = exec (.decode ao' sd' c') s ∧
    exec (.fetch ao sd c) s = exec (.fetch ao' sd' c) s ∧ exec (.encode ao sd c) s = exec (.encode ao' sd c) s ∧
    exec (.send ao sd c) s = exec (.send ao' sd c) s

/-! ## Whole-machine rules -/

/-- Every step keeps the invariant: the canonical form of the table, payloads within their store, `TX` a sequence of whole
frames (20_memory.md R37, R39 item 2; 10_state.md R11). -/
def Obligations.StepKeepsInvariant : Prop :=
  ∀ s t : State, EngineInv s → step s = .next t → EngineInv t

/-- No step stops: every error of the engine ends its operation with a status and the engine goes on ("Nothing in this layer
is fatal to the process", 60_exceptions.md R201). -/
def Obligations.NothingIsFatal : Prop :=
  ∀ s : State, ∃ t, step s = .next t

/-- The ids whose entry the next step may write: the id of a started SEND or FETCH, the awaited id, or the id of the Data
frame received next in a wait (43_correlator.md R150). -/
def MayChange (s : State) (c : Byte) : Prop :=
  (s.waiting = none ∧ s.start = true ∧ (∃ ao sd, decode (.commandWord s.cw) = .send ao sd c ∨
    decode (.commandWord s.cw) = .fetch ao sd c)) ∨
  (∃ w, s.waiting = some w ∧ w.cmd = c) ∨
  (s.waiting ≠ none ∧ ∃ bytes rest f, s.rx = .line bytes :: rest ∧ decodeFrame bytes = .data f ∧ f.cmd = c)

/-- An entry changes only by a row of the table of 43_correlator.md R150: no operation on another id touches it, but the store
of a Data frame of its own id. -/
def Obligations.OnlyNamedEntriesChange : Prop :=
  ∀ (s t : State) (c : Byte), s.rst = false → step s = .next t → t.tabRead c ≠ s.tabRead c → MayChange s c

/-- How an entry can change, in the states of 10_state.md R12 (43_correlator.md R150): to Idle; to Sent by the SEND of its
id from an entry that is not pending; or by a Data frame that leaves `pending` and `exp_side` as they are and leaves a payload
buffered. -/
def Obligations.EntryTransitions : Prop :=
  ∀ (s t : State) (c : Byte), EngineInv s → s.rst = false → step s = .next t → t.tabRead c ≠ s.tabRead c →
    t.tabRead c = Entry.idle ∨
    (s.waiting = none ∧ s.start = true ∧ (s.tabRead c).pending = none ∧ ∃ ao sd side, decode (.commandWord s.cw) = .send ao sd c ∧ sideOf sd = some side ∧
      t.tabRead c = ⟨some side, none⟩) ∨
    (s.waiting ≠ none ∧ ∃ bytes rest f, s.rx = .line bytes :: rest ∧ decodeFrame bytes = .data f ∧ f.cmd = c ∧
      t.tabRead c = ⟨(s.tabRead c).pending, some ⟨f.side, f.payload⟩⟩)

/-- The engine only appends to `TX`, and only by a successful SEND: one whole frame, contiguous (10_state.md R16, 20_memory.md
R39 item 2). -/
def Obligations.TxGrowsBySendOnly : Prop :=
  ∀ s t : State, s.rst = false → step s = .next t →
    t.tx = s.tx ∨
    (s.waiting = none ∧ s.start = true ∧ t.status = .ok ∧ ∃ ao sd c side, decode (.commandWord s.cw) = .send ao sd c ∧
      sideOf sd = some side ∧ t.tx = s.tx ++ frame c side s.operand)

/-- Receive events are consumed one at a time, from the front, and only while a wait is in progress (10_state.md R17,
20_memory.md R38); a reset consumes none (70_reset_and_hazards.md R231). -/
def Obligations.EventsConsumedInWaitOnly : Prop :=
  ∀ s t : State, step s = .next t →
    (s.rst = true ∨ s.waiting = none → t.rx = s.rx) ∧
    (s.rst = false → s.waiting ≠ none → t.rx = s.rx.tail)

/-- The result latches are written only when an operation ends (10_state.md R19): a step after which a wait is in progress, or
in which nothing was started, leaves them as they are. -/
def Obligations.ResultsHeldUntilEnd : Prop :=
  ∀ s t : State, s.rst = false → step s = .next t →
    (t.waiting ≠ none ∨ (s.waiting = none ∧ s.start = false)) → ResultsSame s t

/-- No operand latch is modified by the engine (10_state.md R18). -/
def Obligations.OperandLatchesKept : Prop :=
  ∀ s t : State, s.rst = false → step s = .next t → t.cw = s.cw ∧ t.opLen = s.opLen ∧ t.opBuf = s.opBuf

/-- A change of the operand latches after an AWAIT has begun has no effect on it (20_memory.md R42): in a wait, two states that
differ in `CW`, `OP_LEN` and `OP_BUF` only step to states that differ in them only. -/
def Obligations.LatchesSampledAtBegin : Prop :=
  ∀ (s : State) (w : CommandWord) (n : OpLen) (buf : OpBuf), s.rst = false → s.waiting ≠ none →
    ∃ t, step s = .next t ∧
      step { s with cw := w, opLen := n, opBuf := buf } = .next { t with cw := w, opLen := n, opBuf := buf }

/-- What ends a wait (43_correlator.md R166): a timeout, a line that does not decode, a Nack, or an Ack with a payload buffered
for the awaited id or with `ack_only`; a Data frame, or an Ack that meets neither, never does. -/
def Obligations.WhatEndsAWait : Prop :=
  ∀ (s t : State) (w : Waiting) (ev : Event) (rest : List Event),
    s.rst = false → s.waiting = some w → s.rx = ev :: rest → step s = .next t →
    (t.waiting = none ↔
      ev = .timeout ∨ ∃ bytes, ev = .line bytes ∧
        ((∃ e, decodeFrame bytes = .error e) ∨ decodeFrame bytes = .nack ∨
          (decodeFrame bytes = .ack ∧ ((s.tabRead w.cmd).buf ≠ none ∨ w.ackOnly = true))))

/-- The steps of a wait are the read loop of 43_correlator.md R152 with the bodies of R153 to R162: from any state of a wait
with no reset, running one step for each event the loop consumes gives the state in which the loop leaves the engine, ended
with the latches it defines or still waiting with every event consumed. The model's choice: one step for each event (log 1), a
wait that stands still when no event is listed (log 3), and the free values of the latches the loop does not define, the same on
both sides (log 4). -/
def Obligations.AwaitRunsReadLoop : Prop :=
  ∀ (s : State) (w : Waiting), s.rst = false → s.waiting = some w →
    Host.Core.run core (s.rx.length - (readLoop w s.mem s.rx).rx.length) s =
      .next (afterLoop s (readLoop w s.mem s.rx))

/-- One catalog operation, SEND then AWAIT of the same id (30_encoding.md R70; 95_test_vectors.md S3.4, P2): the device's Data
frame, from the expected side, and then an Ack deliver the payload to the host, and the record is gone. For every payload of
the command and of the answer and every id but 0xA0 to 0xAF, whose answers are taken for Acks (70_reset_and_hazards.md R241),
from any state that holds the invariant with the id not pending. The model's choice: AWAIT takes three steps here, one to begin
and one for each event (log 1), and the host issues each operation by writing the latches and the start input (log 2). -/
def Obligations.TransactionDeliversPayload : Prop :=
  ∀ (s : State) (c : Byte) (side : Side) (ao : Bool) (command : OpBuf) (answer ackTail : List Byte)
    (rest : List Event),
    EngineInv s → s.rst = false → s.waiting = none → (s.tabRead c).pending = none →
    ¬ (0xA0 ≤ c.toNat ∧ c.toNat ≤ 0xAF) → command.bytes.length ≤ 255 → answer.length ≤ 255 →
    ackTail.length + 2 ≤ Config.lineMax →
    s.rx = .line (frameLine c side answer) :: .line (0x23 :: 0x41 :: ackTail) :: rest →
    ∃ s1 t,
      step (s.issue (packCommand 2 false (sideCode side) false false c) command) = .next s1 ∧
      s1.status = .ok ∧ s1.tx = s.tx ++ frame c side command.bytes ∧
      Host.Core.run core 3 (s1.issue (packCommand 4 ao (sideCode side) false false c) OpBuf.empty) = .next t ∧
      Ended .ok t ∧ t.hasPayload = true ∧ t.resSide = sideCode side ∧ BytesDelivered answer t ∧
      t.tabRead c = Entry.idle ∧ TableSameBut c s t ∧ t.tx = s1.tx ∧ t.rx = rest

/-- The rest of an Ack or Nack line is never used (43_correlator.md R159, 30_encoding.md R61). -/
def Obligations.AckAndNackTextIgnored : Prop :=
  ∀ (r1 r2 : List Byte) (s : State), exec (.ack r1) s = exec (.ack r2) s ∧ exec (.nack r1) s = exec (.nack r2) s

/-- The expected side recorded with a command is never read (43_correlator.md R164): two states that differ only in it, both
with tables in canonical form, step to two states that differ only in it. -/
def Obligations.ExpSideNeverRead : Prop :=
  ∀ s1 s2 t1 : State, s1.mem.wf → s2.mem.wf → SameButExpSides s1 s2 → step s1 = .next t1 →
    ∃ t2, step s2 = .next t2 ∧ SameButExpSides t1 t2

/-! ## The operand latches -/

/-- The operand latches (10_state.md R18): `OP_LEN` is 0 to `LINE_MAX` and fits `ceil(log2(LINE_MAX+1))` bits, no fewer; an
operation reads `OP_BUF[0 .. OP_LEN-1]`, never beyond the buffer; and what the host issues is what the operation reads, the bytes
of the buffer after it as before. A byte of `OP_BUF` that the host has not written since reset reads 0x00, the model's choice
(log 7); the start input is the model's too (log 2). -/
def Obligations.OperandWithinBuffer : Prop :=
  (Config.lineMax + 1 ≤ 2 ^ Config.lenWidth ∧ 2 ^ (Config.lenWidth - 1) < Config.lineMax + 1) ∧
  (∀ s : State, s.opLen.val ≤ Config.lineMax ∧ s.operand.length = s.opLen.val ∧
    ∀ (i : Fin Config.lineMax), i.val < s.opLen.val → s.operand[i.val]? = some (s.opBuf.byte i)) ∧
  (∀ (s : State) (w : CommandWord) (operand : OpBuf),
    (s.issue w operand).cw = w ∧ (s.issue w operand).operand = operand.bytes ∧ (s.issue w operand).start = true ∧
    ∀ (i : Fin Config.lineMax), operand.bytes.length ≤ i.val → (s.issue w operand).opBuf.byte i = s.opBuf.byte i)

/-! ## Lines whose checksum is right and whose fields are not -/

/-- The field checks (42_decode.md R129 to R132), for a Data line within `LINE_MAX` of fields without commas, each followed by a
comma, then two checksum digits of the right value: with fewer than three fields before the checksum (four in all) it is
malformed; with three or more it is malformed exactly when CMD is not two hex digits, or SIDE is not one of the three
characters, or LEN is empty, has a character that is no hex digit or is above 255, or the number of payload fields is not LEN
(more as well as fewer), or a payload field is not two hex digits. -/
def Obligations.FieldFailuresMalformed : Prop :=
  ∀ (fields : List (List Byte)) (a b : Byte),
    let region : List Byte := 0x23 :: fields.flatMap (fun f => f ++ [0x2C])
    fields ≠ [] → (∀ f ∈ fields, 0x2C ∉ f) → isHex a = true → isHex b = true → region.length + 2 ≤ Config.lineMax →
    region[1]? ≠ some 0x4E → region[1]? ≠ some 0x41 → (checksum region).toNat = 16 * hexVal a + hexVal b →
    (fields.length < 3 → decodeFrame (region ++ [a, b]) = .error .malformedFrame) ∧
    (∀ cmd side len payload, fields = cmd :: side :: len :: payload →
      (decodeFrame (region ++ [a, b]) = .error .malformedFrame ↔
        ¬ TwoDigits cmd ∨ side ∉ [[0x30], [0x31], [0x32]] ∨
        len = [] ∨ (∃ ch ∈ len, isHex ch = false) ∨ 255 < hexNum len ∨
        payload.length ≠ hexNum len ∨ ∃ f ∈ payload, ¬ TwoDigits f))

/-! ## The result latches -/

/-- The result latches for byte sequences (10_state.md R19): `RES_LEN` has `ceil(log2(LINE_MAX+1))` bits, no more than needed,
and `RES_BUF` `LINE_MAX` bytes. A payload is held whole. ENCODE, and SEND where the id is not pending, leave the frame's length
in `RES_LEN`, and the frame is held whole at every `LINE_MAX` of 777 or more, and at 776 for a payload of less than 255 bytes; its
line, without the delimiter, is held whole always. That at `LINE_MAX` = 776 the delimiter of a 777-byte frame has no place while
`RES_LEN` is 777 is the model's reading of R19 beside 41_encode.md R100 (log 6). -/
def Obligations.ResultLatchesHoldResults : Prop :=
  (Config.lineMax + 1 ≤ 2 ^ Config.lenWidth ∧ 2 ^ (Config.lenWidth - 1) < Config.lineMax + 1) ∧
  (∀ s : State, s.resLen.toNat < 2 ^ Config.lenWidth ∧ s.resBuf.bytes.length ≤ Config.lineMax) ∧
  (∀ (payload : List Byte) (t : State), payload.length ≤ 255 → BytesDelivered payload t → HeldWhole payload t) ∧
  (∀ (ao : Bool) (sd : BitVec 2) (c : Byte) (s : State) (side : Side) (i : Instr),
    sideOf sd = some side → s.operand.length ≤ 255 →
    (i = .encode ao sd c ∨ i = .send ao sd c ∧ (s.tabRead c).pending = none) →
    ∃ t, exec i s = .next t ∧ t.resLen.toNat = (frame c side s.operand).length ∧ HeldWhole (frameLine c side s.operand) t ∧
      (777 ≤ Config.lineMax ∨ s.operand.length < 255 → HeldWhole (frame c side s.operand) t))
end

