-- ==== Sys2Proof/Laws/Checksum.lean ====
section
/-! SUPPORT. The CRC register is linear: one shift, several shifts and one byte step commute with exclusive-or. -/

namespace Sys2Proof.Machine

theorem crcShift_xor (a b : CrcWord) : crcShift (a ^^^ b) = crcShift a ^^^ crcShift b := by
  unfold crcShift
  rw [BitVec.getLsbD_xor, BitVec.shiftLeft_xor_distrib]
  cases a.getLsbD 15 <;> cases b.getLsbD 15 <;> simp
  · ac_rfl
  · ac_rfl
  · have : Config.crcPoly ^^^ (b <<< 1 ^^^ Config.crcPoly) = b <<< 1 := by
      rw [BitVec.xor_comm, BitVec.xor_assoc, BitVec.xor_self, BitVec.xor_zero]
    rw [BitVec.xor_assoc, this]

theorem crcShifts_xor (n : Nat) (a b : CrcWord) : crcShifts n (a ^^^ b) = crcShifts n a ^^^ crcShifts n b := by
  induction n generalizing a b with
  | zero => rfl
  | succ n ih => simp only [crcShifts, crcShift_xor, ih]

theorem crcStep_xor (a b : CrcWord) (x y : Byte) : crcStep (a ^^^ b) (x ^^^ y) = crcStep a x ^^^ crcStep b y := by
  unfold crcStep
  rw [← crcShifts_xor]
  congr 1
  rw [show (x ^^^ y).setWidth 16 = x.setWidth 16 ^^^ y.setWidth 16 from BitVec.setWidth_xor, BitVec.shiftLeft_xor_distrib]
  ac_rfl

/-- The checksum is the low byte of the CRC (40_checksum.md R84). -/
theorem checksum_toNat (s : List Byte) : (checksum s).toNat = (crc16 s).toNat % 256 := by
  simp [checksum]

theorem crcStep_zero : crcStep 0 0 = 0 := by decide

/-- Zero bytes leave a zero register zero (40_checksum.md R83). -/
theorem crc16_zeros (n : Nat) : (List.replicate n (0 : Byte)).foldl crcStep 0 = 0 := by
  induction n with
  | zero => rfl
  | succ n ih => rw [List.replicate_succ, List.foldl_cons, crcStep_zero, ih]

end Sys2Proof.Machine
end

