-- ==== Sys2Proof/Laws/Encoding.lean ====
section
/-! SUPPORT. The laws of the command word's layout and of the classification of lines. -/

namespace Sys2Proof

/-- The test of a line's length is the test the spec states (42_decode.md R136). -/
theorem overlong_iff (l : List Byte) : overlong l = true ↔ Config.lineMax < l.length := by
  unfold overlong
  cases h : l.drop Config.lineMaxLeast with
  | nil =>
    have hl : l.length ≤ 776 := by simpa using h
    simp only [Config.lineMax, Config.lineMaxLeast, Bool.false_eq_true, false_iff]
    omega
  | cons a b => simp

theorem overlong_eq_false {l : List Byte} (h : l.length ≤ Config.lineMax) : overlong l = false := by
  rw [Bool.eq_false_iff, ne_eq, overlong_iff]
  omega

theorem lineMax_ge : 776 ≤ Config.lineMax := Nat.le_add_right _ _

/-- Every bit of a packed command word. -/
theorem getLsbD_packCommand (op : BitVec 3) (ao : Bool) (sd : BitVec 2) (b9 b8 : Bool) (c : Byte) (i : Nat) :
  (packCommand op ao sd b9 b8 c).getLsbD i =
    if i < 8 then c.getLsbD i else if i = 8 then b8 else if i = 9 then b9 else if i < 12 then sd.getLsbD (i - 10)
    else if i = 12 then ao else op.getLsbD (i - 13) := by
  unfold packCommand
  rw [BitVec.getLsbD_append, BitVec.getLsbD_append, BitVec.getLsbD_append, BitVec.getLsbD_append, BitVec.getLsbD_append]
  by_cases h1 : i < 8
  · have : i < 9 := by omega
    have : i < 10 := by omega
    have : i < 12 := by omega
    have : i < 13 := by omega
    simp [*]
  by_cases h2 : i = 8
  · subst h2; simp
  by_cases h3 : i = 9
  · subst h3; simp
  by_cases h4 : i < 12
  · have h5 : ¬ i < 10 := by omega
    have h6 : ¬ i < 9 := by omega
    have : i < 13 := by omega
    have : i - 8 - 1 - 1 = i - 10 := by omega
    simp [*]
  by_cases h5 : i = 12
  · subst h5; simp
  · have : ¬ i < 13 := by omega
    have : ¬ i < 10 := by omega
    have : ¬ i < 9 := by omega
    have : i - 8 - 1 - 1 -2 - 1= i - 13 := by omega
    simp [*]

/-- The fields of a packed command word are those it was packed from. -/
theorem fields_packCommand (op : BitVec 3) (ao : Bool) (sd : BitVec 2) (b9 b8 : Bool) (c : Byte) :
  cwOp (packCommand op ao sd b9 b8 c) = op ∧ cwAckOnly (packCommand op ao sd b9 b8 c) = ao ∧
  cwSide (packCommand op ao sd b9 b8 c) = sd ∧ cwBit9 (packCommand op ao sd b9 b8 c) = b9 ∧
  cwBit8 (packCommand op ao sd b9 b8 c) = b8 ∧ cwCmd (packCommand op ao sd b9 b8 c) = c := by
  refine ⟨?_, ?_, ?_, ?_, ?_, ?_⟩
  · apply BitVec.eq_of_getLsbD_eq; intro i hi
    simp only [cwOp, BitVec.getLsbD_extractLsb', getLsbD_packCommand]
    have : ¬ 13 + i < 8 ∧ ¬ 13 + i = 8 ∧ ¬ 13 + i = 9 ∧ ¬ 13 + i < 12 ∧ ¬ 13 + i = 12 := by omega
    simp [this, hi]
  · unfold cwAckOnly; rw [getLsbD_packCommand]; simp
  · apply BitVec.eq_of_getLsbD_eq; intro i hi
    simp only [cwSide, BitVec.getLsbD_extractLsb', getLsbD_packCommand]
    have : ¬ 10 + i < 8 ∧ ¬ 10 + i = 8 ∧ ¬ 10 + i = 9 ∧ 10 + i < 12 := by omega
    simp [this, hi]
  · unfold cwBit9; rw [getLsbD_packCommand]; simp
  · unfold cwBit8; rw [getLsbD_packCommand]; simp
  · apply BitVec.eq_of_getLsbD_eq; intro i hi
    simp only [cwCmd, BitVec.getLsbD_extractLsb', getLsbD_packCommand]
    simp [hi]

/-- A command word is packed from its fields. -/
theorem packCommand_fields (w : CommandWord) :
   packCommand (cwOp w) (cwAckOnly w) (cwSide w) (cwBit9 w) (cwBit8 w) (cwCmd w) = w := by
  apply BitVec.eq_of_getLsbD_eq; intro i hi
  rw [getLsbD_packCommand]
  simp only [cwOp, cwAckOnly, cwSide, cwBit9, cwBit8, cwCmd, BitVec.getLsbD_extractLsb']
  split
  · simp [*]
  split
  · simp [*]
  split
  · simp [*]
  split
  · have : i - 10 < 2 := by omega
    have : 10 + (i - 10) = i := by omega
    simp [*]
  split
  · simp [*]
  · have : i - 13 < 3 := by omega
    have : 13 + (i - 13) = i := by omega
    simp [*]

/-- Decoding a packed word whose reserved bits are clear goes by its operation code. -/
theorem decodeCommand_packCommand (op : BitVec 3) (ao : Bool) (sd : BitVec 2) (c : Byte) :
    decodeCommand (packCommand op ao sd false false c) = commandRow op ao sd c := by
  obtain ⟨h1, h2, h3, h4, h5, h6⟩ := fields_packCommand op ao sd false false c
  simp only [decodeCommand, h1, h2, h3, h4, h5, h6, Bool.false_eq_true, if_false]

/-! ## Classification -/

theorem classify_of_overlong {l : List Byte} (h : overlong l = true) : classify l = .malformed l := by
  simp [classify, h]

theorem classify_nil : classify [] = .malformed [] := by
  simp [classify, overlong]

theorem classify_of_head {h : Byte} (hh : h ≠ Config.headMarker) (t : List Byte) : classify (h :: t) = .malformed (h :: t) := by
  unfold classify
  split <;> simp [hh]

theorem classify_nack {rest : List Byte} (h : overlong (Config.headMarker :: Config.kindNack :: rest) = false) :
    classify (Config.headMarker :: Config.kindNack :: rest) = .nack rest := by
  simp [classify, h]

theorem classify_ack {rest : List Byte} (h : overlong (Config.headMarker :: Config.kindAck :: rest) = false) :
    classify (Config.headMarker :: Config.kindAck :: rest) = .ack rest := by
  have hne : Config.kindAck ≠ Config.kindNack := by decide
  simp [classify, h, hne]

theorem classify_data {body : List Byte} (h : overlong (Config.headMarker :: body) = false)
    (hN : body.head? ≠ some Config.kindNack) (hA : body.head? ≠ some Config.kindAck) :
    classify (Config.headMarker :: body) = .data body := by
  cases body with
  | nil => simp [classify, h]
  | cons k rest =>
    have h1 : k ≠ Config.kindNack := by simpa using hN
    have h2 : k ≠ Config.kindAck := by simpa using hA
    simp [classify, h, h1, h2]

end Sys2Proof
end

