-- ==== Sys2Proof/Laws/State.lean ====
section
/-! SUPPORT. One lemma for each field and each update of the state, so that no proof unfolds a record update. -/

namespace Sys2Proof.Machine

/-! ## `tabWrite` -/

@[simp] theorem State.tabWrite_mem (s : State) (c : Byte) (e : Entry) : (s.tabWrite c e).mem = s.mem.write c.toNat e := rfl
@[simp] theorem State.tabWrite_tx (s : State) (c : Byte) (e : Entry) : (s.tabWrite c e).tx = s.tx := rfl
@[simp] theorem State.tabWrite_rx (s : State) (c : Byte) (e : Entry) : (s.tabWrite c e).rx = s.rx := rfl
@[simp] theorem State.tabWrite_cw (s : State) (c : Byte) (e : Entry) : (s.tabWrite c e).cw = s.cw := rfl
@[simp] theorem State.tabWrite_opLen (s : State) (c : Byte) (e : Entry) : (s.tabWrite c e).opLen = s.opLen := rfl
@[simp] theorem State.tabWrite_opBuf (s : State) (c : Byte) (e : Entry) : (s.tabWrite c e).opBuf = s.opBuf := rfl
@[simp] theorem State.tabWrite_start (s : State) (c : Byte) (e : Entry) : (s.tabWrite c e).start = s.start := rfl
@[simp] theorem State.tabWrite_rst (s : State) (c : Byte) (e : Entry) : (s.tabWrite c e).rst = s.rst := rfl
@[simp] theorem State.tabWrite_waiting (s : State) (c : Byte) (e : Entry) : (s.tabWrite c e).waiting = s.waiting := rfl
@[simp] theorem State.tabWrite_status (s : State) (c : Byte) (e : Entry) : (s.tabWrite c e).status = s.status := rfl
@[simp] theorem State.tabWrite_hasPayload (s : State) (c : Byte) (e : Entry) : (s.tabWrite c e).hasPayload = s.hasPayload := rfl
@[simp] theorem State.tabWrite_resKind (s : State) (c : Byte) (e : Entry) : (s.tabWrite c e).resKind = s.resKind := rfl
@[simp] theorem State.tabWrite_resCmd (s : State) (c : Byte) (e : Entry) : (s.tabWrite c e).resCmd = s.resCmd := rfl
@[simp] theorem State.tabWrite_resSide (s : State) (c : Byte) (e : Entry) : (s.tabWrite c e).resSide = s.resSide := rfl
@[simp] theorem State.tabWrite_resCk (s : State) (c : Byte) (e : Entry) : (s.tabWrite c e).resCk = s.resCk := rfl
@[simp] theorem State.tabWrite_resLen (s : State) (c : Byte) (e : Entry) : (s.tabWrite c e).resLen = s.resLen := rfl
@[simp] theorem State.tabWrite_resBuf (s : State) (c : Byte) (e : Entry) : (s.tabWrite c e).resBuf = s.resBuf := rfl
@[simp] theorem State.tabWrite_freeIdx (s : State) (c : Byte) (e : Entry) : (s.tabWrite c e).freeIdx = s.freeIdx := rfl

/-! ## `txWrite` -/

@[simp] theorem State.txWrite_mem (s : State) (bytes : List Byte) : (s.txWrite bytes).mem = s.mem := rfl
@[simp] theorem State.txWrite_tx (s : State) (bytes : List Byte) : (s.txWrite bytes).tx = s.tx ++ bytes := rfl
@[simp] theorem State.txWrite_rx (s : State) (bytes : List Byte) : (s.txWrite bytes).rx = s.rx := rfl
@[simp] theorem State.txWrite_cw (s : State) (bytes : List Byte) : (s.txWrite bytes).cw = s.cw := rfl
@[simp] theorem State.txWrite_opLen (s : State) (bytes : List Byte) : (s.txWrite bytes).opLen = s.opLen := rfl
@[simp] theorem State.txWrite_opBuf (s : State) (bytes : List Byte) : (s.txWrite bytes).opBuf = s.opBuf := rfl
@[simp] theorem State.txWrite_start (s : State) (bytes : List Byte) : (s.txWrite bytes).start = s.start := rfl
@[simp] theorem State.txWrite_rst (s : State) (bytes : List Byte) : (s.txWrite bytes).rst = s.rst := rfl
@[simp] theorem State.txWrite_waiting (s : State) (bytes : List Byte) : (s.txWrite bytes).waiting = s.waiting := rfl
@[simp] theorem State.txWrite_status (s : State) (bytes : List Byte) : (s.txWrite bytes).status = s.status := rfl
@[simp] theorem State.txWrite_hasPayload (s : State) (bytes : List Byte) : (s.txWrite bytes).hasPayload = s.hasPayload := rfl
@[simp] theorem State.txWrite_resKind (s : State) (bytes : List Byte) : (s.txWrite bytes).resKind = s.resKind := rfl
@[simp] theorem State.txWrite_resCmd (s : State) (bytes : List Byte) : (s.txWrite bytes).resCmd = s.resCmd := rfl
@[simp] theorem State.txWrite_resSide (s : State) (bytes : List Byte) : (s.txWrite bytes).resSide = s.resSide := rfl
@[simp] theorem State.txWrite_resCk (s : State) (bytes : List Byte) : (s.txWrite bytes).resCk = s.resCk := rfl
@[simp] theorem State.txWrite_resLen (s : State) (bytes : List Byte) : (s.txWrite bytes).resLen = s.resLen := rfl
@[simp] theorem State.txWrite_resBuf (s : State) (bytes : List Byte) : (s.txWrite bytes).resBuf = s.resBuf := rfl
@[simp] theorem State.txWrite_freeIdx (s : State) (bytes : List Byte) : (s.txWrite bytes).freeIdx = s.freeIdx := rfl

/-! ## `finish` -/

@[simp] theorem State.finish_mem (s : State) (st : Status) (r : Results) : (s.finish st r).mem = s.mem := rfl
@[simp] theorem State.finish_tx (s : State) (st : Status) (r : Results) : (s.finish st r).tx = s.tx := rfl
@[simp] theorem State.finish_rx (s : State) (st : Status) (r : Results) : (s.finish st r).rx = s.rx := rfl
@[simp] theorem State.finish_cw (s : State) (st : Status) (r : Results) : (s.finish st r).cw = s.cw := rfl
@[simp] theorem State.finish_opLen (s : State) (st : Status) (r : Results) : (s.finish st r).opLen = s.opLen := rfl
@[simp] theorem State.finish_opBuf (s : State) (st : Status) (r : Results) : (s.finish st r).opBuf = s.opBuf := rfl
@[simp] theorem State.finish_start (s : State) (st : Status) (r : Results) : (s.finish st r).start = s.start := rfl
@[simp] theorem State.finish_rst (s : State) (st : Status) (r : Results) : (s.finish st r).rst = s.rst := rfl
@[simp] theorem State.finish_waiting (s : State) (st : Status) (r : Results) : (s.finish st r).waiting = none := rfl
@[simp] theorem State.finish_status (s : State) (st : Status) (r : Results) : (s.finish st r).status = st := rfl
@[simp] theorem State.finish_hasPayload (s : State) (st : Status) (r : Results) : (s.finish st r).hasPayload = r.hasPayload.getD (Config.freeHasPayload s.freeIdx) := rfl
@[simp] theorem State.finish_resKind (s : State) (st : Status) (r : Results) : (s.finish st r).resKind = r.kind.getD (Config.freeResKind s.freeIdx) := rfl
@[simp] theorem State.finish_resCmd (s : State) (st : Status) (r : Results) : (s.finish st r).resCmd = r.cmd.getD (Config.freeResCmd s.freeIdx) := rfl
@[simp] theorem State.finish_resSide (s : State) (st : Status) (r : Results) : (s.finish st r).resSide = r.side.getD (Config.freeResSide s.freeIdx) := rfl
@[simp] theorem State.finish_resCk (s : State) (st : Status) (r : Results) : (s.finish st r).resCk = r.ck.getD (Config.freeResCk s.freeIdx) := rfl
@[simp] theorem State.finish_resLen (s : State) (st : Status) (r : Results) : (s.finish st r).resLen = (r.bytes.map resLenOf).getD (Config.freeResLen s.freeIdx) := rfl
@[simp] theorem State.finish_resBuf (s : State) (st : Status) (r : Results) : (s.finish st r).resBuf = (r.bytes.map ResBuf.hold).getD ResBuf.empty := rfl
@[simp] theorem State.finish_freeIdx (s : State) (st : Status) (r : Results) : (s.finish st r).freeIdx = s.freeIdx + 1 := rfl

/-! ## `writeOpBuf` -/

@[simp] theorem State.writeOpBuf_mem (s : State) (new : OpBuf) : (s.writeOpBuf new).mem = s.mem := rfl
@[simp] theorem State.writeOpBuf_tx (s : State) (new : OpBuf) : (s.writeOpBuf new).tx = s.tx := rfl
@[simp] theorem State.writeOpBuf_rx (s : State) (new : OpBuf) : (s.writeOpBuf new).rx = s.rx := rfl
@[simp] theorem State.writeOpBuf_cw (s : State) (new : OpBuf) : (s.writeOpBuf new).cw = s.cw := rfl
@[simp] theorem State.writeOpBuf_opLen (s : State) (new : OpBuf) : (s.writeOpBuf new).opLen = s.opLen := rfl
@[simp] theorem State.writeOpBuf_opBuf (s : State) (new : OpBuf) : (s.writeOpBuf new).opBuf = s.opBuf.write new := rfl
@[simp] theorem State.writeOpBuf_start (s : State) (new : OpBuf) : (s.writeOpBuf new).start = s.start := rfl
@[simp] theorem State.writeOpBuf_rst (s : State) (new : OpBuf) : (s.writeOpBuf new).rst = s.rst := rfl
@[simp] theorem State.writeOpBuf_waiting (s : State) (new : OpBuf) : (s.writeOpBuf new).waiting = s.waiting := rfl
@[simp] theorem State.writeOpBuf_status (s : State) (new : OpBuf) : (s.writeOpBuf new).status = s.status := rfl
@[simp] theorem State.writeOpBuf_hasPayload (s : State) (new : OpBuf) : (s.writeOpBuf new).hasPayload = s.hasPayload := rfl
@[simp] theorem State.writeOpBuf_resKind (s : State) (new : OpBuf) : (s.writeOpBuf new).resKind = s.resKind := rfl
@[simp] theorem State.writeOpBuf_resCmd (s : State) (new : OpBuf) : (s.writeOpBuf new).resCmd = s.resCmd := rfl
@[simp] theorem State.writeOpBuf_resSide (s : State) (new : OpBuf) : (s.writeOpBuf new).resSide = s.resSide := rfl
@[simp] theorem State.writeOpBuf_resCk (s : State) (new : OpBuf) : (s.writeOpBuf new).resCk = s.resCk := rfl
@[simp] theorem State.writeOpBuf_resLen (s : State) (new : OpBuf) : (s.writeOpBuf new).resLen = s.resLen := rfl
@[simp] theorem State.writeOpBuf_resBuf (s : State) (new : OpBuf) : (s.writeOpBuf new).resBuf = s.resBuf := rfl
@[simp] theorem State.writeOpBuf_freeIdx (s : State) (new : OpBuf) : (s.writeOpBuf new).freeIdx = s.freeIdx := rfl

/-! ## `writeOpLen` -/

@[simp] theorem State.writeOpLen_mem (s : State) (n : OpLen) : (s.writeOpLen n).mem = s.mem := rfl
@[simp] theorem State.writeOpLen_tx (s : State) (n : OpLen) : (s.writeOpLen n).tx = s.tx := rfl
@[simp] theorem State.writeOpLen_rx (s : State) (n : OpLen) : (s.writeOpLen n).rx = s.rx := rfl
@[simp] theorem State.writeOpLen_cw (s : State) (n : OpLen) : (s.writeOpLen n).cw = s.cw := rfl
@[simp] theorem State.writeOpLen_opLen (s : State) (n : OpLen) : (s.writeOpLen n).opLen = n := rfl
@[simp] theorem State.writeOpLen_opBuf (s : State) (n : OpLen) : (s.writeOpLen n).opBuf = s.opBuf := rfl
@[simp] theorem State.writeOpLen_start (s : State) (n : OpLen) : (s.writeOpLen n).start = s.start := rfl
@[simp] theorem State.writeOpLen_rst (s : State) (n : OpLen) : (s.writeOpLen n).rst = s.rst := rfl
@[simp] theorem State.writeOpLen_waiting (s : State) (n : OpLen) : (s.writeOpLen n).waiting = s.waiting := rfl
@[simp] theorem State.writeOpLen_status (s : State) (n : OpLen) : (s.writeOpLen n).status = s.status := rfl
@[simp] theorem State.writeOpLen_hasPayload (s : State) (n : OpLen) : (s.writeOpLen n).hasPayload = s.hasPayload := rfl
@[simp] theorem State.writeOpLen_resKind (s : State) (n : OpLen) : (s.writeOpLen n).resKind = s.resKind := rfl
@[simp] theorem State.writeOpLen_resCmd (s : State) (n : OpLen) : (s.writeOpLen n).resCmd = s.resCmd := rfl
@[simp] theorem State.writeOpLen_resSide (s : State) (n : OpLen) : (s.writeOpLen n).resSide = s.resSide := rfl
@[simp] theorem State.writeOpLen_resCk (s : State) (n : OpLen) : (s.writeOpLen n).resCk = s.resCk := rfl
@[simp] theorem State.writeOpLen_resLen (s : State) (n : OpLen) : (s.writeOpLen n).resLen = s.resLen := rfl
@[simp] theorem State.writeOpLen_resBuf (s : State) (n : OpLen) : (s.writeOpLen n).resBuf = s.resBuf := rfl
@[simp] theorem State.writeOpLen_freeIdx (s : State) (n : OpLen) : (s.writeOpLen n).freeIdx = s.freeIdx := rfl

/-! ## `startCommand` -/

@[simp] theorem State.startCommand_mem (s : State) (w : CommandWord) : (s.startCommand w).mem = s.mem := rfl
@[simp] theorem State.startCommand_tx (s : State) (w : CommandWord) : (s.startCommand w).tx = s.tx := rfl
@[simp] theorem State.startCommand_rx (s : State) (w : CommandWord) : (s.startCommand w).rx = s.rx := rfl
@[simp] theorem State.startCommand_cw (s : State) (w : CommandWord) : (s.startCommand w).cw = w := rfl
@[simp] theorem State.startCommand_opLen (s : State) (w : CommandWord) : (s.startCommand w).opLen = s.opLen := rfl
@[simp] theorem State.startCommand_opBuf (s : State) (w : CommandWord) : (s.startCommand w).opBuf = s.opBuf := rfl
@[simp] theorem State.startCommand_start (s : State) (w : CommandWord) : (s.startCommand w).start = true := rfl
@[simp] theorem State.startCommand_rst (s : State) (w : CommandWord) : (s.startCommand w).rst = s.rst := rfl
@[simp] theorem State.startCommand_waiting (s : State) (w : CommandWord) : (s.startCommand w).waiting = s.waiting := rfl
@[simp] theorem State.startCommand_status (s : State) (w : CommandWord) : (s.startCommand w).status = s.status := rfl
@[simp] theorem State.startCommand_hasPayload (s : State) (w : CommandWord) : (s.startCommand w).hasPayload = s.hasPayload := rfl
@[simp] theorem State.startCommand_resKind (s : State) (w : CommandWord) : (s.startCommand w).resKind = s.resKind := rfl
@[simp] theorem State.startCommand_resCmd (s : State) (w : CommandWord) : (s.startCommand w).resCmd = s.resCmd := rfl
@[simp] theorem State.startCommand_resSide (s : State) (w : CommandWord) : (s.startCommand w).resSide = s.resSide := rfl
@[simp] theorem State.startCommand_resCk (s : State) (w : CommandWord) : (s.startCommand w).resCk = s.resCk := rfl
@[simp] theorem State.startCommand_resLen (s : State) (w : CommandWord) : (s.startCommand w).resLen = s.resLen := rfl
@[simp] theorem State.startCommand_resBuf (s : State) (w : CommandWord) : (s.startCommand w).resBuf = s.resBuf := rfl
@[simp] theorem State.startCommand_freeIdx (s : State) (w : CommandWord) : (s.startCommand w).freeIdx = s.freeIdx := rfl

/-! ## The operations made of these -/

@[simp] theorem State.issue_eq (s : State) (w : CommandWord) (operand : OpBuf) :
    s.issue w operand =
      ((s.writeOpBuf operand).writeOpLen ⟨operand.bytes.length, Nat.lt_succ_of_le operand.fits⟩).startCommand w := rfl
@[simp] theorem State.raise_eq (s : State) (e : Status) : s.raise e = s.finish e {} := rfl
@[simp] theorem State.complete_eq (s : State) (r : Results) : s.complete r = s.finish .ok r := rfl
@[simp] theorem State.illegal_eq (s : State) : s.illegal = s.finish .illegalOp {} := rfl
@[simp] theorem State.evict_eq (s : State) (c : Byte) (e : Status) :
    s.evict c e = (s.tabWrite c Entry.idle).finish e {} := rfl
@[simp] theorem State.release_eq (s : State) (c : Byte) (b : Buffered) :
    s.release c b = (s.tabWrite c Entry.idle).finish .ok
      { hasPayload := some true, side := some (sideCode b.side), bytes := some b.data } := rfl
@[simp] theorem State.store_eq (s : State) (f : Frame) :
    s.store f = s.tabWrite f.cmd { s.tabRead f.cmd with buf := some ⟨f.side, f.payload⟩ } := rfl

/-! ## The operand buffer -/

@[simp] theorem OpBuf.empty_bytes : OpBuf.empty.bytes = [] := rfl
@[simp] theorem OpBuf.byte_empty (i : Fin Config.lineMax) : OpBuf.empty.byte i = 0 := rfl

/-- A written byte reads as it was written. -/
theorem OpBuf.byte_write_lt (buf new : OpBuf) (i : Fin Config.lineMax) (h : i.val < new.bytes.length) :
    (buf.write new).byte i = new.bytes[i.val] := by
  simp [OpBuf.byte, OpBuf.write, List.getD_eq_getElem?_getD, List.getElem?_append_left h, List.getElem?_eq_getElem h]

/-- A byte after the written ones reads as before. -/
theorem OpBuf.byte_write_ge (buf new : OpBuf) (i : Fin Config.lineMax) (h : new.bytes.length ≤ i.val) :
    (buf.write new).byte i = buf.byte i := by
  have hi : new.bytes.length + (i.val - new.bytes.length) = i.val := by omega
  simp [OpBuf.byte, OpBuf.write, List.getD_eq_getElem?_getD, List.getElem?_append_right h, hi]

/-! ## The result buffer -/

@[simp] theorem ResBuf.empty_bytes : ResBuf.empty.bytes = [] := rfl
@[simp] theorem ResBuf.hold_bytes (bytes : List Byte) : (ResBuf.hold bytes).bytes = bytes.take Config.lineMax :=
  bytesHeld_eq_take bytes

/-- `RES_LEN` counts every result an operation delivers: no payload and no frame is longer than 777 bytes. -/
theorem resLenOf_toNat (bytes : List Byte) (h : bytes.length ≤ 777) : (resLenOf bytes).toNat = bytes.length := by
  have hw : 10 ≤ Config.lenWidth := by
    have := (Nat.le_log2 (n := Config.lineMax) (k := 9) (by simp [Config.lineMax])).mpr (Nat.le_trans (by decide) (Nat.le_add_right 776 _))
    unfold Config.lenWidth
    omega
  have := Nat.pow_le_pow_right (n := 2) (by decide) hw
  exact (BitVec.toNat_ofNat _ _).trans (Nat.mod_eq_of_lt (by omega))

/-! ## Reading the table through the updates that leave it alone -/

@[simp] theorem State.tabRead_txWrite (s : State) (bytes : List Byte) (c : Byte) :
    (s.txWrite bytes).tabRead c = s.tabRead c := rfl
@[simp] theorem State.tabRead_finish (s : State) (st : Status) (r : Results) (c : Byte) :
    (s.finish st r).tabRead c = s.tabRead c := rfl

end Sys2Proof.Machine
end

