-- ==== Sys2Proof/Laws/Memory.lean ====
section
/-! SUPPORT. The laws of the transaction table: reading after writing, and the canonical form kept by every write. -/

namespace Sys2Proof.Machine

theorem Memory.read_cons (k : Nat) (e : Entry) (rest : Memory) (c : Nat) :
    Memory.read ((k, e) :: rest) c = if c = k then e else Memory.read rest c := rfl

/-- An id below every listed one is Idle. -/
theorem Memory.read_of_lt (m : Memory) (c : Nat) (h : ∀ x ∈ m, c < x.1) : m.read c = Entry.idle := by
  induction m with
  | nil => rfl
  | cons x rest ih =>
    have hx := h x (by simp)
    rw [show x = (x.1, x.2) from rfl, Memory.read_cons, if_neg (by omega)]
    exact ih (fun y hy => h y (List.mem_cons_of_mem _ hy))

/-- Another id reads as before. -/
theorem Memory.read_write_ne (m : Memory) (c d : Nat) (e : Entry) (h : d ≠ c) :
    (m.write c e).read d = m.read d := by
  induction m with
  | nil => by_cases he : e = Entry.idle <;> simp [Memory.write, Memory.read, he, h]
  | cons x rest ih =>
    obtain ⟨k, x⟩ := x
    unfold Memory.write
    split
    · split <;> simp [Memory.read, h]
    · split
      · subst_vars
        split <;> simp [Memory.read, h]
      · simp [Memory.read, ih]

/-- The written id reads the written entry, in a table in canonical form. -/
theorem Memory.read_write_eq (m : Memory) (hm : m.wf) (c : Nat) (e : Entry) : (m.write c e).read c = e := by
  induction m with
  | nil => by_cases he : e = Entry.idle <;> simp [Memory.write, Memory.read, he]
  | cons x rest ih =>
    obtain ⟨k, x⟩ := x
    obtain ⟨hp, ha⟩ := hm
    rw [List.pairwise_cons] at hp
    have hrest : Memory.wf rest := ⟨hp.2, fun y hy => ha y (List.mem_cons_of_mem _ hy)⟩
    unfold Memory.write
    split
    · rename_i hlt
      split
      · rename_i he
        subst he
        exact Memory.read_of_lt _ _ (by
          intro y hy
          rcases List.mem_cons.mp hy with rfl | hy
          · exact hlt
          · exact Nat.lt_trans hlt (hp.1 y hy))
      · simp [Memory.read]
    · split
      · subst_vars
        split
        · rename_i he
          subst he
          exact Memory.read_of_lt _ _ (fun y hy => hp.1 y hy)
        · simp [Memory.read]
      · rename_i hne
        rw [Memory.read_cons, if_neg hne]
        exact ih hrest

/-- What a written table lists: what it listed before, and the written entry unless it is Idle. -/
theorem Memory.mem_write (m : Memory) (c : Nat) (e : Entry) (y : Nat × Entry) (h : y ∈ m.write c e) :
    y ∈ m ∨ (y = (c, e) ∧ e ≠ Entry.idle) := by
  induction m with
  | nil =>
    unfold Memory.write at h
    split at h
    · simp at h
    · exact .inr ⟨by simpa using h, ‹_›⟩
  | cons x rest ih =>
    obtain ⟨k, x⟩ := x
    unfold Memory.write at h
    split at h
    · split at h
      · exact .inl h
      · rcases List.mem_cons.mp h with rfl | h
        · exact .inr ⟨rfl, ‹_›⟩
        · exact .inl h
    · split at h
      · split at h
        · exact .inl (List.mem_cons_of_mem _ h)
        · rcases List.mem_cons.mp h with rfl | h
          · exact .inr ⟨rfl, ‹_›⟩
          · exact .inl (List.mem_cons_of_mem _ h)
      · rcases List.mem_cons.mp h with rfl | h
        · exact .inl (by simp)
        · rcases ih h with h | h
          · exact .inl (List.mem_cons_of_mem _ h)
          · exact .inr h

/-- A write keeps the canonical form. -/
theorem Memory.wf_write (m : Memory) (hm : m.wf) (c : Nat) (hc : c < 256) (e : Entry) : (m.write c e).wf := by
  refine ⟨?_, ?_⟩
  · obtain ⟨hp, -⟩ := hm
    induction m with
    | nil => unfold Memory.write; split <;> simp
    | cons x rest ih =>
      obtain ⟨k, x⟩ := x
      have hpc := List.pairwise_cons.mp hp
      unfold Memory.write
      split
      · rename_i hlt
        split
        · exact hp
        · refine List.pairwise_cons.mpr ⟨?_, hp⟩
          intro y hy
          rcases List.mem_cons.mp hy with rfl | hy
          · exact hlt
          · exact Nat.lt_trans hlt (hpc.1 y hy)
      · split
        · subst_vars
          split
          · exact hpc.2
          · exact List.pairwise_cons.mpr ⟨fun y hy => hpc.1 y hy, hpc.2⟩
        · rename_i h1 h2
          refine List.pairwise_cons.mpr ⟨?_, ih hpc.2⟩
          intro y hy
          rcases Memory.mem_write rest c e y hy with h | ⟨rfl, -⟩
          · exact hpc.1 y h
          · show k < c
            omega
  · intro y hy
    rcases Memory.mem_write m c e y hy with h | ⟨rfl, he⟩
    · exact hm.2 y h
    · exact ⟨hc, he⟩

/-! ## The same, through the state -/

theorem State.tabRead_tabWrite_ne (s : State) (c d : Byte) (e : Entry) (h : d ≠ c) :
    (s.tabWrite c e).tabRead d = s.tabRead d :=
  Memory.read_write_ne _ _ _ _ (fun hc => h (BitVec.eq_of_toNat_eq hc))

theorem State.tabRead_tabWrite_eq (s : State) (hs : s.mem.wf) (c : Byte) (e : Entry) :
    (s.tabWrite c e).tabRead c = e :=
  Memory.read_write_eq _ hs _ _

theorem State.wf_tabWrite (s : State) (hs : s.mem.wf) (c : Byte) (e : Entry) : (s.tabWrite c e).mem.wf :=
  Memory.wf_write _ hs _ c.isLt _

theorem State.wf_finish (s : State) (hs : s.mem.wf) (st : Status) (r : Results) : (s.finish st r).mem.wf := hs

end Sys2Proof.Machine
end

