-- ==== Sys2Proof/Laws/Operations.lean ====
section
/-! SUPPORT. What each shared operation and each instruction can do, said once: later proofs cite these and do not unfold
the meanings. -/

namespace Sys2Proof.Machine

open Sys2Proof.Safety

/-! ## Shared operations -/

theorem sideOf_eq_none {b : BitVec 2} : sideOf b = none ↔ b = 3 := by
  revert b; decide

theorem sideOf_sideCode (sd : Side) : sideOf (sideCode sd) = some sd := by
  cases sd <;> rfl

/-- The operand checks of ENCODE and SEND pass exactly for a side and a payload within bounds. -/
theorem encodeOperands?_eq_some {sd : BitVec 2} {p : List Byte} {side : Side} :
    encodeOperands? sd p = some side ↔ sideOf sd = some side ∧ p.length ≤ 255 := by
  unfold encodeOperands?
  cases h : sideOf sd <;> simp [Config.payloadMax]
  tauto

theorem encodeOperands?_eq_none {sd : BitVec 2} {p : List Byte} :
    encodeOperands? sd p = none ↔ sd = 3 ∨ 255 < p.length := by
  unfold encodeOperands?
  cases h : sideOf sd with
  | none => simp [sideOf_eq_none.mp h]
  | some x =>
    have h3 : sd ≠ 3 := fun hc => by rw [sideOf_eq_none.mpr hc] at h; cases h
    simpa [Config.payloadMax] using fun hc => absurd hc h3

/-- The operand of an operation is as long as `OP_LEN` says. -/
@[simp] theorem operand_length (s : State) : s.operand.length = s.opLen.val := List.takeD_length _ _ _

/-- No operand is longer than the buffer. -/
theorem operand_length_le (s : State) : s.operand.length ≤ Config.lineMax := by
  rw [operand_length]
  exact Nat.le_of_lt_succ s.opLen.isLt

/-- The operand the host has issued is the operand the operation reads, whatever the buffer held. -/
theorem operand_issue (s : State) (w : CommandWord) (bytes : OpBuf) : (s.issue w bytes).operand = bytes.bytes := by
  show (bytes.bytes ++ _).takeD bytes.bytes.length 0 = bytes.bytes
  rw [List.takeD_eq_take _ (by simp), List.take_left]

/-- An error status of the decoder is one of the two kinds. -/
theorem parseData_error {body : List Byte} {e : Status} (h : parseData body = .error e) :
    e = .malformedFrame ∨ e = .checksumError := by
  unfold parseData at h
  split at h
  · cases h; exact .inl rfl
  · split at h
    · cases h; exact .inl rfl
    · split at h
      · cases h; exact .inr rfl
      · split at h
        · cases h; exact .inl rfl
        · cases h

theorem decodeFrame_error {line : List Byte} {e : Status} (h : decodeFrame line = .error e) :
    e = .malformedFrame ∨ e = .checksumError := by
  unfold decodeFrame received at h
  split at h
  · cases h
  · cases h
  · split at h
    · cases h
    · cases h; exact parseData_error ‹_›
  · cases h; exact .inl rfl

/-- The bytes an operation delivers are read back from the result latches. -/
theorem bytesDelivered_finish (s : State) (st : Status) (r : Results) (b : List Byte) (h : r.bytes = some b)
    (hl : b.length ≤ 777) : BytesDelivered b (s.finish st r) := by
  refine ⟨by simp [h, resLenOf_toNat b hl], fun i hi => ?_⟩
  simp [State.resByte, h, hi]

/-- Delivered bytes that are no more than `RES_BUF` has are held whole. -/
theorem heldWhole_of_delivered {b : List Byte} {t : State} (h : BytesDelivered b t) (hl : b.length ≤ Config.lineMax) :
    HeldWhole b t :=
  fun i hi => ⟨Nat.lt_of_lt_of_le hi hl, h.byte ⟨i, _⟩ hi⟩

/-- Ending an operation touches the result latches and the wait only. -/
theorem onlyResults_finish (s : State) (st : Status) (r : Results) : OnlyResults s (s.finish st r) :=
  ⟨fun _ => rfl, rfl, rfl, ⟨rfl, rfl, rfl, rfl, rfl⟩⟩

/-! ## The shape of a next state -/

/-- What an instruction can do to a state: each case says which instruction and which condition lead to it. -/
inductive Effect (i : Instr) (s : State) : State → Prop
  /-- Nothing: an Ack that does not end the wait, or a line outside a wait. -/
  | same (h : (∃ rest, i = .ack rest) ∨ s.waiting = none) : Effect i s s
  /-- A wait begins. -/
  | begin (ao : Bool) (sd : BitVec 2) (c : Byte) (side : Side) (hi : i = .await ao sd c) (hs : sideOf sd = some side) :
      Effect i s { s with waiting := some ⟨c, side, ao⟩ }
  /-- The operation ends and touches neither table nor streams. -/
  | ended (st : Status) (r : Results) : Effect i s (s.finish st r)
  /-- The operation ends and empties one entry. -/
  | emptied (c : Byte) (st : Status) (r : Results)
      (h : (∃ ao sd, i = .fetch ao sd c) ∨ ∃ w, s.waiting = some w ∧ w.cmd = c) :
      Effect i s ((s.tabWrite c Entry.idle).finish st r)
  /-- A frame is sent. -/
  | sent (ao : Bool) (sd : BitVec 2) (c : Byte) (side : Side) (hi : i = .send ao sd c) (hs : sideOf sd = some side)
      (hl : s.operand.length ≤ 255) (hp : (s.tabRead c).pending = none) :
      Effect i s (((s.txWrite (frame c side s.operand)).tabWrite c ⟨some side, none⟩).finish .ok
        { bytes := some (frame c side s.operand) })
  /-- A Data frame is stored and the wait goes on. -/
  | stored (body : List Byte) (f : Frame) (w : Waiting) (hi : i = .data body) (hw : s.waiting = some w)
      (hf : parseData body = .ok f) : Effect i s (s.store f)

/-- Every instruction answers a next state, and it is one of the effects. -/
theorem exec_effect (i : Instr) (s : State) : ∃ t, exec i s = .next t ∧ Effect i s t := by
  cases i with
  | checksum ao sd c => exact ⟨_, rfl, .ended _ _⟩
  | encode ao sd c =>
    simp only [exec, execEncode]
    split
    · exact ⟨_, rfl, .ended _ _⟩
    · exact ⟨_, rfl, .ended _ _⟩
  | send ao sd c =>
    simp only [exec, execSend]
    split
    · exact ⟨_, rfl, .ended _ _⟩
    · rename_i side h
      obtain ⟨hs, hl⟩ := encodeOperands?_eq_some.mp h
      split
      · exact ⟨_, rfl, .ended _ _⟩
      · rename_i hp
        exact ⟨_, rfl, .sent ao sd c side rfl hs hl (by simpa using hp)⟩
  | decode ao sd c =>
    simp only [exec, execDecode]
    split <;> exact ⟨_, rfl, .ended _ _⟩
  | await ao sd c =>
    simp only [exec, execAwait]
    split
    · exact ⟨_, rfl, .ended _ _⟩
    · exact ⟨_, rfl, .begin ao sd c _ rfl ‹_›⟩
  | fetch ao sd c =>
    simp only [exec, execFetch]
    split
    · exact ⟨_, rfl, .emptied c _ _ (.inl ⟨ao, sd, rfl⟩)⟩
    · exact ⟨_, rfl, .ended _ _⟩
  | reservedOp6 ao sd c => exact ⟨_, rfl, .ended _ _⟩
  | reservedOp7 ao sd c => exact ⟨_, rfl, .ended _ _⟩
  | reservedBit8 op ao sd b9 c => exact ⟨_, rfl, .ended _ _⟩
  | reservedBit9 op ao sd c => exact ⟨_, rfl, .ended _ _⟩
  | nack rest =>
    simp only [exec, execNack]
    split
    · exact ⟨_, rfl, .same (.inr ‹_›)⟩
    · exact ⟨_, rfl, .emptied _ _ _ (.inr ⟨_, ‹_›, rfl⟩)⟩
  | ack rest =>
    simp only [exec, execAck]
    split
    · exact ⟨_, rfl, .same (.inr ‹_›)⟩
    · split
      · split
        · exact ⟨_, rfl, .emptied _ _ _ (.inr ⟨_, ‹_›, rfl⟩)⟩
        · exact ⟨_, rfl, .emptied _ _ _ (.inr ⟨_, ‹_›, rfl⟩)⟩
      · split
        · exact ⟨_, rfl, .emptied _ _ _ (.inr ⟨_, ‹_›, rfl⟩)⟩
        · exact ⟨_, rfl, .same (.inl ⟨rest, rfl⟩)⟩
  | data body =>
    simp only [exec, execData]
    split
    · exact ⟨_, rfl, .same (.inr ‹_›)⟩
    · split
      · exact ⟨_, rfl, .stored body _ _ rfl ‹_› ‹_›⟩
      · exact ⟨_, rfl, .ended _ _⟩
  | malformed line =>
    simp only [exec, execMalformed]
    split
    · exact ⟨_, rfl, .same (.inr ‹_›)⟩
    · exact ⟨_, rfl, .ended _ _⟩

/-- What a step does, by what it finds to take up. -/
theorem step_of_fetch (s : State) :
    (s.rst = true ∧ step s = .next s.resetEvent) ∨
    (s.rst = false ∧ s.waiting = none ∧ s.start = false ∧ step s = .next s) ∨
    (s.rst = false ∧ s.waiting = none ∧ s.start = true ∧
      step s = exec (decode (.commandWord s.cw)) { s with start := false }) ∨
    (s.rst = false ∧ ∃ w, s.waiting = some w ∧
      ((s.rx = [] ∧ step s = .next s) ∨
       (∃ rest, s.rx = .timeout :: rest ∧
          step s = .next ((({ s with rx := rest } : State).tabWrite w.cmd Entry.idle).finish .responseTimeout {})) ∨
       (∃ bytes rest, s.rx = .line bytes :: rest ∧ step s = exec (decode (.line bytes)) { s with rx := rest }))) := by
  cases hr : s.rst with
  | true => exact .inl ⟨rfl, by simp [step, fetch, hr]⟩
  | false =>
    cases hw : s.waiting with
    | none =>
      cases hs : s.start with
      | false => exact .inr (.inl ⟨rfl, rfl, rfl, by simp [step, fetch, fetchCommand, hr, hw, hs]⟩)
      | true => exact .inr (.inr (.inl ⟨rfl, rfl, rfl, by simp [step, fetch, fetchCommand, hr, hw, hs]⟩))
    | some w =>
      refine .inr (.inr (.inr ⟨rfl, w, rfl, ?_⟩))
      cases hx : s.rx with
      | nil => exact .inl ⟨rfl, by simp [step, fetch, fetchEvent, hr, hw, hx]⟩
      | cons ev rest =>
        cases ev with
        | timeout => exact .inr (.inl ⟨rest, rfl, by simp [step, fetch, fetchEvent, awaitTimeout, hr, hw, hx]⟩)
        | line bytes => exact .inr (.inr ⟨bytes, rest, rfl, by simp [step, fetch, fetchEvent, hr, hw, hx]⟩)

/-- What a step's next state is, by what the step found to take up. -/
theorem step_effect {s t : State} (h : step s = .next t) :
    (s.rst = true ∧ t = s.resetEvent) ∨
    (s.rst = false ∧ s.waiting = none ∧ s.start = false ∧ t = s) ∨
    (s.rst = false ∧ s.waiting = none ∧ s.start = true ∧ Effect (decode (.commandWord s.cw)) { s with start := false } t) ∨
    (s.rst = false ∧ ∃ w, s.waiting = some w ∧ ((s.rx = [] ∧ t = s) ∨
      (∃ rest, s.rx = .timeout :: rest ∧ t = (({ s with rx := rest } : State).tabWrite w.cmd Entry.idle).finish .responseTimeout {}) ∨
      (∃ bytes rest, s.rx = .line bytes :: rest ∧ exec (decode (.line bytes)) { s with rx := rest } = .next t ∧ Effect (decode (.line bytes)) { s with rx := rest } t))) := by
  have key : ∀ i s', step s = exec i s' → exec i s' = .next t ∧ Effect i s' t := by
    intro i s' he
    obtain ⟨t', ht, hE⟩ := exec_effect i s'
    rw [h, ht] at he; cases he; exact ⟨ht, hE⟩
  obtain ⟨h1, h'⟩ | ⟨h1, h2, h3, h'⟩ | ⟨h1, h2, h3, h'⟩ | ⟨h1, w, h2, ⟨h3, h'⟩ | ⟨r, h3, h'⟩ | ⟨b, r, h3, h'⟩⟩ := step_of_fetch s
  · rw [h] at h'; cases h'; exact .inl ⟨h1, rfl⟩
  · rw [h] at h'; cases h'; exact .inr (.inl ⟨h1, h2, h3, rfl⟩)
  · exact .inr (.inr (.inl ⟨h1, h2, h3, (key _ _ h').2⟩))
  · rw [h] at h'; cases h'; exact .inr (.inr (.inr ⟨h1, w, h2, .inl ⟨h3, rfl⟩⟩))
  · rw [h] at h'; cases h'; exact .inr (.inr (.inr ⟨h1, w, h2, .inr (.inl ⟨r, h3, rfl⟩)⟩))
  · exact .inr (.inr (.inr ⟨h1, w, h2, .inr (.inr ⟨b, r, h3, key _ _ h'⟩)⟩))

end Sys2Proof.Machine
end

