-- ==== Sys2Proof/Laws/Codec.lean ====
section
/-! SUPPORT. The laws of the frame codec: hex digits, splitting at commas, the checksum region, and the parts of an
encoded frame. -/

namespace Sys2Proof.Machine

open Sys2Proof.Safety

/-! ## Hex digits -/

theorem isHex_ne_separator : ∀ ch : Byte, isHex ch = true → ch ≠ Config.separator := by decide +kernel

theorem hexVal_lt : ∀ ch : Byte, isHex ch = true → hexVal ch < 16 := by decide +kernel

theorem hexDig_facts : ∀ n : BitVec 4,
    isHex (hexDig n) = true ∧ hexVal (hexDig n) = n.toNat ∧ hexDig n ∈ hexDigits ∧ hexDig n = digit n.toNat := by
  decide +kernel

theorem hex2_digit : ∀ v : Byte, hex2 v = [digit (v.toNat / 16), digit (v.toNat % 16)] := by decide +kernel

theorem hexByte?_hex2 : ∀ v : Byte, hexByte? (hex2 v) = some v := by decide +kernel

theorem hexN_facts : ∀ n ≤ 255, (hexN (BitVec.ofNat 8 n)).length = (if n ≤ 15 then 1 else 2) ∧
    lenField? (hexN (BitVec.ofNat 8 n)) = some n := by decide +kernel

/-- A field of two hex digits, read as a byte. -/
theorem hexByte?_eq_some {field : List Byte} {b : Byte} :
    hexByte? field = some b ↔
      ∃ x y, field = [x, y] ∧ isHex x = true ∧ isHex y = true ∧ b.toNat = 16 * hexVal x + hexVal y := by
  constructor
  · intro h
    unfold hexByte? at h
    split at h
    · rename_i x y
      split at h
      · rename_i hxy
        simp only [Bool.and_eq_true] at hxy
        cases h
        refine ⟨x, y, rfl, hxy.1, hxy.2, ?_⟩
        have := hexVal_lt x hxy.1
        have := hexVal_lt y hxy.2
        simp [hexNum]
        omega
      · cases h
    · cases h
  · rintro ⟨x, y, rfl, hx, hy, hb⟩
    have := hexVal_lt x hx
    have := hexVal_lt y hy
    simp only [hexByte?, hx, hy, Bool.and_self, if_true, Option.some.injEq]
    apply BitVec.eq_of_toNat_eq
    rw [hb]
    simp [hexNum]
    omega

theorem hexByte?_eq_none {field : List Byte} :
    hexByte? field = none ↔ ¬ ∃ x y, field = [x, y] ∧ isHex x = true ∧ isHex y = true := by
  unfold hexByte?
  split
  · rename_i a b
    cases ha : isHex a <;> cases hb : isHex b <;> simp [ha, hb]
  · rename_i hne
    simp only [true_iff]
    rintro ⟨x, y, hxy, -⟩
    exact hne x y hxy

theorem sideField?_eq_some {field : List Byte} {sd : Side} : sideField? field = some sd ↔ field = [sideChar sd] := by
  constructor
  · intro h
    unfold sideField? at h
    split at h
    · rename_i ch
      split at h
      · cases h; subst_vars; rfl
      split at h
      · cases h; subst_vars; rfl
      split at h
      · cases h; subst_vars; rfl
      · cases h
    · cases h
  · rintro rfl
    cases sd <;> rfl

theorem lenField?_eq_some {field : List Byte} {n : Nat} :
    lenField? field = some n ↔ field ≠ [] ∧ (∀ ch ∈ field, isHex ch = true) ∧ hexNum field = n ∧ n ≤ 255 := by
  unfold lenField?
  split
  · rename_i h
    obtain ⟨h1, h2, h3⟩ := h
    simp only [List.all_eq_true] at h2
    simp only [Config.payloadMax] at h3
    constructor
    · intro h; cases h; exact ⟨h1, h2, rfl, h3⟩
    · rintro ⟨-, -, rfl, -⟩; rfl
  · rename_i h
    simp only [List.all_eq_true, Config.payloadMax] at h
    constructor
    · intro h'; cases h'
    · rintro ⟨h1, h2, rfl, h3⟩
      exact absurd ⟨h1, h2, h3⟩ h

/-! ## When a field is read -/

/-- A two-digit field is read exactly when it is two hex digits. -/
theorem exists_hexByte? {field : List Byte} : (∃ b, hexByte? field = some b) ↔ TwoDigits field := by
  constructor
  · rintro ⟨b, h⟩
    obtain ⟨x, y, rfl, hx, hy, -⟩ := hexByte?_eq_some.mp h
    exact ⟨rfl, by simp [hx, hy]⟩
  · rintro ⟨h1, h2⟩
    match field, h1 with
    | [x, y], _ =>
      have hx := h2 x (by simp)
      have hy := h2 y (by simp)
      exact ⟨BitVec.ofNat 8 (hexNum [x, y]), by simp [hexByte?, hx, hy]⟩

/-- The payload fields are read exactly when each is two hex digits. -/
theorem exists_payloadFields? {fields : List (List Byte)} :
    (∃ bs, payloadFields? fields = some bs) ↔ ∀ f ∈ fields, TwoDigits f := by
  induction fields with
  | nil => simp [payloadFields?]
  | cons f rest ih =>
    rw [List.forall_mem_cons, ← ih, ← exists_hexByte?]
    simp only [payloadFields?]
    cases hexByte? f <;> cases payloadFields? rest <;> simp

/-- The side field is read exactly when it is one of the three characters. -/
theorem exists_sideField? {field : List Byte} :
    (∃ sd, sideField? field = some sd) ↔ field ∈ [[0x30#8], [0x31#8], [0x32#8]] := by
  constructor
  · rintro ⟨sd, h⟩
    rw [sideField?_eq_some] at h
    subst h
    cases sd <;> decide
  · intro h
    simp only [List.mem_cons, List.not_mem_nil, or_false] at h
    rcases h with rfl | rfl | rfl <;> exact ⟨_, rfl⟩

/-! ## Splitting at commas -/

/-- The fields with commas between them. -/
def join : List (List Byte) → List Byte
  | [] => []
  | f :: fs => f ++ fs.flatMap (fun g => Config.separator :: g)

/-- Each field followed by a comma is the joined fields followed by one. -/
theorem flatMap_separator (f : List Byte) (fs : List (List Byte)) :
    (f :: fs).flatMap (fun g => g ++ [Config.separator]) = join (f :: fs) ++ [Config.separator] := by
  induction fs generalizing f with
  | nil => simp [join]
  | cons g fs ih =>
    rw [List.flatMap_cons, ih g]
    simp [join]

theorem split_ne_nil (l : List Byte) : split l ≠ [] := by
  cases l with
  | nil => simp [split]
  | cons b r =>
    unfold split
    split
    · simp
    · split <;> simp

/-- Splitting loses nothing, and no piece has a comma. -/
theorem join_split (l : List Byte) : join (split l) = l ∧ ∀ p ∈ split l, Config.separator ∉ p := by
  induction l with
  | nil => simp [split, join]
  | cons b r ih =>
    unfold split
    obtain ⟨h1, h2⟩ := ih
    split
    · rename_i h
      subst h
      constructor
      · cases hs : split r with
        | nil => exact absurd hs (split_ne_nil r)
        | cons p ps =>
          rw [hs] at h1
          simpa [join] using h1
      · intro p hp
        rcases List.mem_cons.mp hp with rfl | hp
        · simp
        · exact h2 p hp
    · rename_i hb
      cases hs : split r with
      | nil => exact absurd hs (split_ne_nil r)
      | cons p ps =>
        rw [hs] at h1 h2
        constructor
        · simpa [join] using h1
        · intro q hq
          rcases List.mem_cons.mp hq with rfl | hq
          · intro hm
            rcases List.mem_cons.mp hm with h | h
            · exact hb h.symm
            · exact h2 p (by simp) h
          · exact h2 q (List.mem_cons_of_mem _ hq)

theorem split_one (a : List Byte) (h : Config.separator ∉ a) : split a = [a] := by
  induction a with
  | nil => rfl
  | cons b a ih =>
    have hb : b ≠ Config.separator := fun hc => h (by simp [hc])
    have h' := ih (fun hm => h (List.mem_cons_of_mem _ hm))
    simp only [split, if_neg hb, h']

theorem split_field (a r : List Byte) (h : Config.separator ∉ a) :
    split (a ++ Config.separator :: r) = a :: split r := by
  induction a with
  | nil => simp [split]
  | cons b a ih =>
    have hb : b ≠ Config.separator := fun hc => h (by simp [hc])
    have h' := ih (fun hm => h (List.mem_cons_of_mem _ hm))
    rw [List.cons_append, split, if_neg hb, h']

/-- Joining fields without commas and splitting gives them back. -/
theorem split_join (f : List Byte) (fs : List (List Byte)) (h : ∀ p ∈ f :: fs, Config.separator ∉ p) :
    split (join (f :: fs)) = f :: fs := by
  induction fs generalizing f with
  | nil => simpa [join] using split_one f (h f (by simp))
  | cons g fs ih =>
    have h' := ih g (fun p hp => h p (List.mem_cons_of_mem _ hp))
    simp only [join, List.flatMap_cons] at h' ⊢
    rw [List.cons_append, split_field _ _ (h f (by simp)), h']

theorem split_append (before ck : List Byte) (h : Config.separator ∉ ck) :
    split (before ++ Config.separator :: ck) = split before ++ [ck] := by
  induction before with
  | nil => simp [split, split_one ck h]
  | cons b r ih =>
    rw [List.cons_append, split, split, ih]
    split
    · rfl
    · cases hs : split r with
      | nil => exact absurd hs (split_ne_nil r)
      | cons p ps => rfl

/-! ## The checks of a Data line -/

theorem regionOf_eq (a ck : List Byte) (h : Config.separator ∉ ck) :
    regionOf (a ++ Config.separator :: ck) = a ++ [Config.separator] := by
  unfold regionOf
  rw [List.reverse_append, List.reverse_cons, List.append_assoc, List.dropWhile_append_of_pos]
  · simp
  · intro x hx
    have hne : x ≠ Config.separator := fun hc => h (hc ▸ List.mem_reverse.mp hx)
    simpa using hne

theorem parseData_of_no_comma (body : List Byte) (h : Config.separator ∉ body) :
    parseData body = .error .malformedFrame := by
  unfold parseData
  rw [split_one body h]
  simp

/-- The checks of a body with a comma, in order: the checksum field, the checksum, the fields. -/
theorem parseData_eq (before ck : List Byte) (h : Config.separator ∉ ck) :
    parseData (before ++ Config.separator :: ck) =
      match hexByte? ck with
      | none => .error .malformedFrame
      | some k =>
        if checksum (Config.headMarker :: (before ++ [Config.separator])) ≠ k then .error .checksumError
        else match parseFields (split before ++ [ck]) k with
          | none => .error .malformedFrame
          | some f => .ok f := by
  have hlen : ¬ (split before ++ [ck]).length < 2 := by
    have := List.length_pos_of_ne_nil (split_ne_nil before)
    rw [List.length_append, List.length_singleton]
    omega
  have hlast : (split before ++ [ck]).getLastD [] = ck := by simp
  have hreg : regionOf (Config.headMarker :: (before ++ Config.separator :: ck))
      = Config.headMarker :: (before ++ [Config.separator]) := regionOf_eq (Config.headMarker :: before) ck h
  cases hk : hexByte? ck with
  | none => simp only [parseData, split_append before ck h, if_neg hlen, hlast, hk]
  | some k =>
    cases hf : parseFields (split before ++ [ck]) k <;>
      simp only [parseData, split_append before ck h, if_neg hlen, hlast, hk, hreg, hf]

/-! ## The parts of an encoded frame -/

theorem payloadTokens_length (p : List Byte) : (payloadTokens p).length = 3 * p.length := by
  induction p with
  | nil => rfl
  | cons b r ih =>
    simp [payloadTokens, hex2, ih]
    omega

theorem frameLine_length (cmd : Byte) (side : Side) (p : List Byte) (h : p.length ≤ 255) :
    (frameLine cmd side p).length = 9 + (if p.length ≤ 15 then 1 else 2) + 3 * p.length := by
  simp only [frameLine, frameRegion, List.length_append, List.length_cons, (hexN_facts _ h).1, payloadTokens_length, hex2,
    List.length_nil]
  omega

/-- A frame is as long as 30_encoding.md R52 says; the longest has 777 bytes. -/
theorem frame_length (cmd : Byte) (side : Side) (p : List Byte) (h : p.length ≤ 255) :
    (frame cmd side p).length = 10 + (if p.length ≤ 15 then 1 else 2) + 3 * p.length := by
  rw [frame, List.length_append, frameLine_length cmd side p h, List.length_singleton]
  omega

theorem frame_length_le (cmd : Byte) (side : Side) (p : List Byte) (h : p.length ≤ 255) :
    (frame cmd side p).length ≤ 777 := by
  rw [frame_length cmd side p h]
  split <;> omega

theorem payloadTokens_eq (p : List Byte) :
    payloadTokens p = (p.map hex2).flatMap (fun g => Config.separator :: g) := by
  induction p with
  | nil => rfl
  | cons b r ih => simp [payloadTokens, ih]

theorem payloadFields?_map_hex2 (p : List Byte) : payloadFields? (p.map hex2) = some p := by
  induction p with
  | nil => rfl
  | cons b r ih => simp [payloadFields?, hexByte?_hex2, ih]

theorem hex2_no_separator : ∀ v : Byte, Config.separator ∉ hex2 v := by decide +kernel

theorem hexN_no_separator : ∀ v : Byte, Config.separator ∉ hexN v := by decide +kernel

theorem sideChar_no_separator : ∀ sd : Side, Config.separator ∉ [sideChar sd] := by
  intro sd
  cases sd <;> decide

/-! ## What the decoder accepts -/

/-- The field checks pass exactly for these fields. -/
theorem parseFields_eq_some {fs : List (List Byte)} {ck : List Byte} {k : Byte} {f : Frame} :
  parseFields (fs ++ [ck]) k = some f ↔ ∃ c sdf ln pf, fs = c :: sdf :: ln :: pf ∧ hexByte? c = some f.cmd ∧ sideField? sdf = some f.side ∧ lenField? ln = some pf.length ∧ payloadFields? pf = some f.payload ∧ f.checksum = k := by
  match fs with
  | [] => simp [parseFields]
  | [_] => simp [parseFields]
  | [_, _] => simp [parseFields]
  | c :: sdf :: ln :: pf =>
    obtain ⟨last, more, hm⟩ : ∃ last more, pf ++ [ck] = last :: more := by
      cases pf with
      | nil => exact ⟨_, _, rfl⟩
      | cons a b => exact ⟨_, _, rfl⟩
    have hlen : (c :: sdf :: ln :: pf ++ [ck]).length = pf.length + 4 := by simp
    have hdl : (last :: more).dropLast = pf := by rw [← hm]; simp
    constructor
    · intro h
      simp only [List.cons_append, hm, parseFields] at h
      rw [← hm, ← List.cons_append, ← List.cons_append, ← List.cons_append, hlen] at h
      rw [show (pf ++ [ck]).dropLast = pf by simp] at h
      cases h1 : hexByte? c with
      | none => simp [h1] at h
      | some cmd =>
      cases h2 : sideField? sdf with
      | none => simp [h1, h2] at h
      | some sd =>
      cases h3 : lenField? ln with
      | none => simp [h1, h2, h3] at h
      | some n =>
      simp only [h1, h2, h3] at h
      split at h
      · rename_i hn
        cases h4 : payloadFields? pf with
        | none => simp [h4] at h
        | some pl =>
          simp only [h4, Option.some.injEq] at h
          subst h
          refine ⟨c, sdf, ln, pf, rfl, h1, h2, ?_, h4, rfl⟩
          rw [h3]; congr 1; omega
      · cases h
    · rintro ⟨c', sdf', ln', pf', heq, h1, h2, h3, h4, h5⟩
      injection heq with e1 e2; injection e2 with e2 e3; injection e3 with e3 e4
      subst e1 e2 e3 e4
      simp only [List.cons_append, hm]
      unfold parseFields
      simp only [h1, h2, h3]
      rw [if_pos (by rw [← hm, ← List.cons_append, ← List.cons_append, ← List.cons_append, hlen]), hdl, h4, ← h5]

/-- The payload fields are read exactly when each is two hex digits. -/
theorem payloadFields?_eq_some {fs : List (List Byte)} {bs : List Byte} :
  payloadFields? fs = some bs ↔ ∃ tokens : List (Byte × Byte), fs = tokens.map (fun p => [p.1, p.2]) ∧ (∀ p ∈ tokens, isHex p.1 = true ∧ isHex p.2 = true) ∧ bs.map BitVec.toNat = tokens.map (fun p => 16 * hexVal p.1 + hexVal p.2) := by
  induction fs generalizing bs with
  | nil =>
    simp only [payloadFields?]
    constructor
    · intro h; cases h; exact ⟨[], rfl, by simp, rfl⟩
    · rintro ⟨t, ht, -, hb⟩
      have : t = [] := by simpa using ht.symm
      subst this; simp at hb; simp [hb]
  | cons g fs ih =>
    simp only [payloadFields?]
    constructor
    · intro h
      split at h
      · rename_i b bs' h1 h2
        cases h
        obtain ⟨x, y, rfl, hx, hy, hb⟩ := hexByte?_eq_some.mp h1
        obtain ⟨t, rfl, h3, h4⟩ := ih.mp h2
        refine ⟨(x, y) :: t, rfl, ?_, by simp [hb, h4]⟩
        intro p hp; rcases List.mem_cons.mp hp with rfl | hp
        · exact ⟨hx, hy⟩
        · exact h3 p hp
      · cases h
    · rintro ⟨t, ht, h1, h2⟩
      cases t with
      | nil => simp at ht
      | cons p t =>
        simp only [List.map_cons, List.cons.injEq] at ht
        obtain ⟨rfl, rfl⟩ := ht
        cases bs with
        | nil => simp at h2
        | cons b bs =>
          simp only [List.map_cons, List.cons.injEq] at h2
          have e1 : hexByte? [p.1, p.2] = some b := hexByte?_eq_some.mpr ⟨_, _, rfl, (h1 p (by simp)).1, (h1 p (by simp)).2, h2.1⟩
          have e2 : payloadFields? (t.map (fun p => [p.1, p.2])) = some bs := ih.mpr ⟨t, rfl, fun q hq => h1 q (List.mem_cons_of_mem _ hq), h2.2⟩
          rw [e1, e2]

theorem exists_last_comma {l : List Byte} (h : Config.separator ∈ l) : ∃ a b, l = a ++ Config.separator :: b ∧ Config.separator ∉ b := by
  induction l with
  | nil => simp at h
  | cons x r ih =>
    by_cases hr : Config.separator ∈ r
    · obtain ⟨a, b, rfl, hb⟩ := ih hr; exact ⟨x :: a, b, rfl, hb⟩
    · rcases List.mem_cons.mp h with rfl | h
      · exact ⟨[], r, rfl, hr⟩
      · exact absurd h hr

/-- A line is a Data frame exactly when it is of that kind and its body passes the checks. -/
theorem decodeFrame_eq_data {line : List Byte} {f : Frame} : decodeFrame line = .data f ↔ ∃ body, line = Config.headMarker :: body ∧ line.length ≤ Config.lineMax ∧ body.head? ≠ some Config.kindNack ∧ body.head? ≠ some Config.kindAck ∧ parseData body = .ok f := by
  constructor
  · intro h
    unfold decodeFrame at h
    have hov : overlong line = false := by
      by_contra hc
      rw [classify_of_overlong (by simpa using hc)] at h; cases h
    have hl : line.length ≤ Config.lineMax := by
      by_contra hc
      rw [(overlong_iff line).mpr (by omega)] at hov; cases hov
    cases line with
    | nil => rw [classify_nil] at h; cases h
    | cons x body =>
      by_cases hx : x = Config.headMarker
      swap; · rw [classify_of_head hx] at h; cases h
      subst hx
      have hN : body.head? ≠ some Config.kindNack := by
        intro hc
        cases body with
        | nil => cases hc
        | cons k r => simp at hc; subst hc; rw [classify_nack hov] at h; cases h
      have hA : body.head? ≠ some Config.kindAck := by
        intro hc
        cases body with
        | nil => cases hc
        | cons k r => simp at hc; subst hc; rw [classify_ack hov] at h; cases h
      rw [classify_data hov hN hA] at h
      refine ⟨body, rfl, hl, hN, hA, ?_⟩
      simp only [received] at h
      split at h
      · cases h; assumption
      · cases h
  · rintro ⟨body, rfl, hl, hN, hA, hp⟩
    unfold decodeFrame
    rw [classify_data (overlong_eq_false hl) hN hA]; simp [received, hp]

/-! ## No parsed payload is longer than its store -/

theorem payloadFields?_length {fs : List (List Byte)} {p : List Byte} (h : payloadFields? fs = some p) : p.length = fs.length := by
  induction fs generalizing p with
  | nil => cases h; rfl
  | cons f r ih =>
    unfold payloadFields? at h
    split at h
    · cases h; simp [ih ‹_›]
    · cases h


theorem lenField?_le {f : List Byte} {n : Nat} (h : lenField? f = some n) : n ≤ 255 := by
  unfold lenField? at h; split at h
  · rename_i h'; cases h; exact h'.2.2
  · cases h

theorem parseFields_le {fs : List (List Byte)} {ck : Byte} {f : Frame} (h : parseFields fs ck = some f) : f.payload.length ≤ 255 := by
  unfold parseFields at h
  split at h
  · split at h
    · split at h
      · split at h
        · rename_i a b c d e f1 g h1 h2 h3 h4 h5 _ h6
          cases h
          have := payloadFields?_length h6
          have := lenField?_le ‹_›
          simp at *
          omega
        · cases h
      · cases h
    · cases h
  · cases h

theorem parseData_le {b : List Byte} {f : Frame} (h : parseData b = .ok f) : f.payload.length ≤ 255 := by
  unfold parseData at h
  split at h
  · cases h
  · split at h
    · cases h
    · split at h
      · cases h
      · split at h
        · cases h
        · cases h; exact parseFields_le ‹_›

end Sys2Proof.Machine
end

