-- ==== Sys2Proof/Laws/PerInstr.lean ====
section
/-! SUPPORT. Statements about each instruction as syntax, one lemma for each constructor. -/

namespace Sys2Proof.Laws.RoundTrip

/-- Decoding the code of the instruction gives it back. -/
def Statement (i : Instr) : Prop := wellFormed i = true → Sys2Proof.decode (Sys2Proof.encode i) = i

theorem checksum (ao : Bool) (sd : BitVec 2) (c : Byte) : Statement (.checksum ao sd c) :=
  fun _ => decodeCommand_packCommand _ ao sd c

theorem encode (ao : Bool) (sd : BitVec 2) (c : Byte) : Statement (.encode ao sd c) :=
  fun _ => decodeCommand_packCommand _ ao sd c

theorem send (ao : Bool) (sd : BitVec 2) (c : Byte) : Statement (.send ao sd c) :=
  fun _ => decodeCommand_packCommand _ ao sd c

theorem decode (ao : Bool) (sd : BitVec 2) (c : Byte) : Statement (.decode ao sd c) :=
  fun _ => decodeCommand_packCommand _ ao sd c

theorem await (ao : Bool) (sd : BitVec 2) (c : Byte) : Statement (.await ao sd c) :=
  fun _ => decodeCommand_packCommand _ ao sd c

theorem fetch (ao : Bool) (sd : BitVec 2) (c : Byte) : Statement (.fetch ao sd c) :=
  fun _ => decodeCommand_packCommand _ ao sd c

theorem reservedOp6 (ao : Bool) (sd : BitVec 2) (c : Byte) : Statement (.reservedOp6 ao sd c) :=
  fun _ => decodeCommand_packCommand _ ao sd c

theorem reservedOp7 (ao : Bool) (sd : BitVec 2) (c : Byte) : Statement (.reservedOp7 ao sd c) :=
  fun _ => decodeCommand_packCommand _ ao sd c

theorem reservedBit8 (op : BitVec 3) (ao : Bool) (sd : BitVec 2) (b9 : Bool) (c : Byte) :
    Statement (.reservedBit8 op ao sd b9 c) := by
  intro _
  obtain ⟨h1, h2, h3, h4, h5, h6⟩ := fields_packCommand op ao sd b9 true c
  show Sys2Proof.decode (Sys2Proof.encode _) = _
  simp only [Sys2Proof.encode, Sys2Proof.decode, decodeCommand, h1, h2, h3, h4, h5, h6, if_true]

theorem reservedBit9 (op : BitVec 3) (ao : Bool) (sd : BitVec 2) (c : Byte) : Statement (.reservedBit9 op ao sd c) := by
  intro _
  obtain ⟨h1, h2, h3, h4, h5, h6⟩ := fields_packCommand op ao sd true false c
  show Sys2Proof.decode (Sys2Proof.encode _) = _
  simp only [Sys2Proof.encode, Sys2Proof.decode, decodeCommand, h1, h2, h3, h4, h5, h6, if_true, Bool.false_eq_true, if_false]

theorem nack (rest : List Byte) : Statement (.nack rest) := by
  intro h
  show Sys2Proof.decode (Sys2Proof.encode _) = _
  simp only [Sys2Proof.encode, Sys2Proof.decode, decodeLine, classify_nack (by simpa [wellFormed] using h), LineKind.toInstr]

theorem ack (rest : List Byte) : Statement (.ack rest) := by
  intro h
  show Sys2Proof.decode (Sys2Proof.encode _) = _
  simp only [Sys2Proof.encode, Sys2Proof.decode, decodeLine, classify_ack (by simpa [wellFormed] using h), LineKind.toInstr]

theorem data (body : List Byte) : Statement (.data body) := by
  intro h
  have h' : (overlong (Config.headMarker :: body) = false ∧ body.head? ≠ some Config.kindNack) ∧
      body.head? ≠ some Config.kindAck := by simpa [wellFormed, bne_iff_ne] using h
  show Sys2Proof.decode (Sys2Proof.encode _) = _
  simp only [Sys2Proof.encode, Sys2Proof.decode, decodeLine, classify_data h'.1.1 h'.1.2 h'.2, LineKind.toInstr]

theorem malformed (line : List Byte) : Statement (.malformed line) := by
  intro h
  have h' : overlong line = true ∨ line.head? ≠ some Config.headMarker := by
    simpa [wellFormed, bne_iff_ne] using h
  have hc : classify line = .malformed line := by
    rcases h' with h' | h'
    · exact classify_of_overlong h'
    · cases line with
      | nil => exact classify_nil
      | cons b t => exact classify_of_head (by simpa using h') t
  show Sys2Proof.decode (Sys2Proof.encode _) = _
  simp only [Sys2Proof.encode, Sys2Proof.decode, decodeLine, hc, LineKind.toInstr]

end Sys2Proof.Laws.RoundTrip
end

