-- ==== Sys2Proof/Tests/Slice0.lean ====
section
/-! SUPPORT. Tests. Every expected value is written out from the layouts and vectors of spec/ (the vector or rule is named
with the test); none comes from the model. The second half is one witness for each statement with hypotheses. -/

namespace Sys2Proof.Tests

set_option Elab.async false

open Sys2Proof.Machine Sys2Proof.Safety

/-! ## Helpers -/

/-- The bytes of an ASCII text. -/
def ascii (text : String) : List Byte := text.toList.map (fun ch => BitVec.ofNat 8 ch.toNat)

/-- Bytes the host writes to the operand buffer (no more than the least `LINE_MAX`). -/
def operandOf (bytes : List Byte) : OpBuf :=
  ⟨bytes.take 776, Nat.le_trans (List.length_take_le _ _) lineMax_ge⟩

/-- After reset, an operation started with these operands. -/
def started (w : CommandWord) (operand : List Byte) : State := State.reset.issue w (operandOf operand)

/-- A table with one entry. -/
def one (c : Nat) (e : Entry) : Memory := [(c, e)]

/-- A state with an operation started over a table. -/
def startedOver (m : Memory) (w : CommandWord) (operand : List Byte) : State :=
  { started w operand with mem := m }

/-- A wait for id 0x55, side Right. -/
def waitingFor (ackOnly : Bool) (m : Memory) (rx : List Event) : State :=
  { State.reset with mem := m, rx := rx, waiting := some ⟨0x55, .right, ackOnly⟩ }

/-- What a test looks at in the outcome of a step. -/
def seen {α : Type} (o : Host.Outcome State Fault Refusal) (f : State → α) : Option α :=
  match o with
  | .next t => some (f t)
  | .fault _ => none
  | .refused _ => none

/-- Whether a step answers a next state of which this holds. -/
def answers (o : Host.Outcome State Fault Refusal) (p : State → Bool) : Bool := (seen o p).getD false

/-! ## Operand latches (10_state.md R18) -/

/-- A shorter operand leaves the bytes of the buffer after it; `OP_LEN` says how many count. -/
theorem test_issue_operand :
    ((started 0x2054 [1, 2, 3]).issue 0x0000 (operandOf [9])).operand = [9] ∧
    (((started 0x2054 [1, 2, 3]).issue 0x0000 (operandOf [9])).writeOpLen ⟨2, by have := lineMax_ge; omega⟩).operand = [9, 2] ∧
    ((started 0x2054 []).writeOpLen ⟨776, Nat.lt_succ_of_le lineMax_ge⟩).operand.length = 776 :=
  ⟨by decide, by decide, by rw [operand_length]; rfl⟩

/-! ## Well-formed instructions -/

theorem test_wellFormed_commands :
    wellFormed (.checksum true 3 0xFF) = true ∧ wellFormed (.encode false 0 0x54) = true ∧
    wellFormed (.send false 3 0x55) = true ∧ wellFormed (.decode true 1 0) = true ∧ wellFormed (.await true 3 0x55) = true ∧
    wellFormed (.fetch false 0 0x23) = true ∧ wellFormed (.reservedOp6 false 0 0) = true ∧
    wellFormed (.reservedOp7 true 3 0xFF) = true ∧ wellFormed (.reservedBit8 7 true 3 true 0xFF) = true ∧
    wellFormed (.reservedBit9 7 true 3 0xFF) = true := by decide

theorem test_wellFormed_lines :
    wellFormed (.nack (ascii "AK")) = true ∧ wellFormed (.ack []) = true ∧ wellFormed (.data (ascii "54,0,0,B0")) = true ∧
    wellFormed (.data []) = true ∧ wellFormed (.malformed []) = true ∧ wellFormed (.malformed (ascii "A")) = true := by
  decide +kernel

/-- A Data body that begins with `N` or `A` is no Data line (30_encoding.md R62). -/
theorem test_wellFormed_refuses_data_heads : wellFormed (.data (ascii "N4")) = false ∧ wellFormed (.data (ascii "A5")) = false := by
  decide +kernel

/-- A short line from `#` is not malformed as a kind (30_encoding.md R62). -/
theorem test_wellFormed_refuses_malformed_from_marker : wellFormed (.malformed (ascii "#54,0,0,B0")) = false := by
  decide +kernel

theorem overlong_replicate (b : Byte) (n : Nat) (h : Config.lineMax < n) : overlong (List.replicate n b) = true :=
  (overlong_iff _).mpr (by simpa using h)

/-- No line longer than `LINE_MAX` is of the first three kinds (42_decode.md R136). -/
theorem test_wellFormed_refuses_overlong :
    wellFormed (.nack (List.replicate Config.lineMax 0x78)) = false ∧
    wellFormed (.ack (List.replicate Config.lineMax 0x78)) = false ∧
    wellFormed (.data (List.replicate Config.lineMax 0x78)) = false := by
  have h (k : List Byte) : overlong (Config.headMarker :: (k ++ List.replicate Config.lineMax 0x78)) = true :=
    (overlong_iff _).mpr (by rw [List.length_cons, List.length_append, List.length_replicate]; omega)
  refine ⟨?_, ?_, ?_⟩
  · simpa [wellFormed] using h [Config.kindNack]
  · simpa [wellFormed] using h [Config.kindAck]
  · have h0 : overlong (Config.headMarker :: List.replicate Config.lineMax 0x78) = true := h []
    show (!overlong (Config.headMarker :: List.replicate Config.lineMax 0x78) && _ && _) = false
    rw [h0]
    rfl

theorem test_wellFormed_overlong_malformed : wellFormed (.malformed (List.replicate (Config.lineMax + 1) 0x23)) = true := by
  simp [wellFormed, overlong_replicate]

/-! ## Decoding (30_encoding.md R62, R67, R68; the words of the vectors and programs) -/

/-- `000ass00cccccccc` and its neighbours, every field set to its ones or to a mark. -/
theorem test_decode_command_rows :
    decode (.commandWord 0b0001110010100101) = .checksum true 3 0xA5 ∧
    decode (.commandWord 0b0010100000000000) = .encode false 2 0x00 ∧
    decode (.commandWord 0b0100010001010101) = .send false 1 0x55 ∧
    decode (.commandWord 0b0110000000000000) = .decode false 0 0x00 ∧
    decode (.commandWord 0b1001010001010101) = .await true 1 0x55 ∧
    decode (.commandWord 0b1010000000100011) = .fetch false 0 0x23 := by decide

theorem test_decode_reserved_rows :
    decode (.commandWord 0b1101010000000001) = .reservedOp6 true 1 0x01 ∧
    decode (.commandWord 0b1110100010000000) = .reservedOp7 false 2 0x80 ∧
    decode (.commandWord 0b0100000101010101) = .reservedBit8 2 false 0 false 0x55 ∧
    decode (.commandWord 0b1000001001010101) = .reservedBit9 4 false 0 0x55 ∧
    decode (.commandWord 0b1101111111111110) = .reservedBit8 6 true 3 true 0xFE := by decide

theorem test_decode_lines :
    decode (.line (ascii "#N4,0,0,B0")) = .nack (ascii "4,0,0,B0") ∧ decode (.line (ascii "#A5,garbage")) = .ack (ascii "5,garbage") ∧
    decode (.line (ascii "#54,0,0,B0")) = .data (ascii "54,0,0,B0") ∧ decode (.line (ascii "#a5")) = .data (ascii "a5") ∧
    decode (.line (ascii "#n")) = .data (ascii "n") ∧ decode (.line (ascii "#")) = .data [] ∧
    decode (.line []) = .malformed [] ∧ decode (.line (ascii "$54,0,0,B0")) = .malformed (ascii "$54,0,0,B0") ∧
    decode (.line (ascii "A")) = .malformed (ascii "A") := by decide +kernel

/-- The words the table's rows match (spec/opcode_table.json). -/
theorem test_decodeTableWord :
    decodeTableWord 16 0x8000 = some (.await false 0 0) ∧ decodeTableWord 16 0x234E = some (.nack []) ∧
    decodeTableWord 16 0x2341 = some (.ack []) ∧ decodeTableWord 16 0x2300 = some (.data [0x00]) ∧
    decodeTableWord 8 0x23 = some (.data []) ∧ decodeTableWord 24 0x414243 = some (.malformed [0x41, 0x42, 0x43]) ∧
    decodeTableWord 16 0x0200 = some (.reservedBit9 0 false 0 0) := by decide

/-- The word placed is the one the next step runs. -/
theorem test_withFetchWord :
    step (State.reset.withFetchWord 16 0x4455) = exec (.send false 1 0x55) { State.reset with cw := 0x4455 } ∧
    step (State.reset.withFetchWord 16 0x2341) = exec (.ack []) { State.reset with waiting := some ⟨0, .left, false⟩ } :=
  ⟨rfl, rfl⟩

/-! ## CRC and CHECKSUM (vectors V1 to V17) -/

theorem test_crc_vectors :
    crc16 (ascii "123456789") = 0x31C3 ∧ crc16 [] = 0 ∧ crc16 [0, 0, 0] = 0 ∧ crc16 [0x01] = 0x1021 ∧ crc16 [0x80] = 0x9188 ∧
    crc16 [0xFF] = 0x1EF0 ∧ crc16 (ascii "#A") = 0x0B50 ∧ crc16 (ascii "#54,0,6,c8,00,c8,00,c8,00,") = 0xC101 ∧
    crc16 (ascii "#31,1,5,01,02,03,04,05,") = 0xDFCE ∧ crc16 (ascii "#31,2,5,01,02,03,04,05,") = 0xADCE := by decide +kernel

/-- The register after each byte of V10, as the spec lists it. -/
theorem test_crc_trace :
    (ascii "#54,0,6,C8,00,C8,00,C8,00,").scanl crcStep Config.crcInit =
      [0, 0x1401, 0x3543, 0x5321, 0xAE78, 0x1A77, 0x2195, 0xF7D6, 0xAC16, 0x1AC1, 0xC520, 0x4C07, 0xB81B, 0x0B80, 0xD485,
        0x765E, 0xF70A, 0x7016, 0x5EC4, 0x4968, 0x5403, 0x61D6, 0x1DDC, 0xFA72, 0x0A06, 0x9119, 0x6F76] := by decide +kernel

/-- P9 operation 1. -/
theorem test_exec_checksum :
    seen (step (started 0x0000 (ascii "#54,0,6,C8,00,C8,00,C8,00,"))) (fun t => (t.status, t.resCk, t.tx)) =
      some (.ok, 0x76, []) := by decide +kernel

/-! ## Hex helpers (V18 to V20) -/

theorem test_hex_helpers :
    [0x00, 0x05, 0x54, 200, 255].map hex2 = ["00", "05", "54", "C8", "FF"].map ascii ∧
    [0, 1, 9, 10, 15, 16, 17, 100, 255].map hexN = ["0", "1", "9", "A", "F", "10", "11", "64", "FF"].map ascii ∧
    ["0a", "Fb", "006", "100"].map (fun t => hexNum (ascii t)) = [10, 251, 6, 256] := by decide +kernel

/-- The characters just outside the ranges of R64, and those at their ends. -/
theorem test_isHex_bounds :
    (ascii "/:@G`g").map isHex = List.replicate 6 false ∧ (ascii "09AFaf").map isHex = List.replicate 6 true := by decide +kernel

/-! ## ENCODE (V21 to V26e) -/

theorem test_frames :
    frame 0x54 .left [0xC8, 0x00, 0xC8, 0x00, 0xC8, 0x00] = ascii "#54,0,6,C8,00,C8,00,C8,00,76" ++ [0] ∧
    frame 0x54 .left [] = ascii "#54,0,0,B0" ++ [0] ∧ frame 0x00 .both [] = ascii "#00,2,0,DE" ++ [0] ∧
    frame 0x10 .right ((List.range 15).map (BitVec.ofNat 8)) =
      ascii "#10,1,F,00,01,02,03,04,05,06,07,08,09,0A,0B,0C,0D,0E,CD" ++ [0] ∧
    frame 0xFF .both (List.replicate 16 0xFF) =
      ascii "#FF,2,10,FF,FF,FF,FF,FF,FF,FF,FF,FF,FF,FF,FF,FF,FF,FF,FF,EA" ++ [0] ∧
    frame 0xA5 .left [0x01] = ascii "#A5,0,1,01,84" ++ [0] ∧
    frame 0x31 .both [1, 2, 3, 4, 5] = ascii "#31,2,5,01,02,03,04,05,CE" ++ [0] := by decide +kernel

/-- V21, V26c, V26d. -/
theorem test_exec_encode :
    seen (step (started 0x2054 [0xC8, 0x00, 0xC8, 0x00, 0xC8, 0x00])) (fun t => (t.status, t.resBuf.bytes)) =
      some (.ok, ascii "#54,0,6,C8,00,C8,00,C8,00,76" ++ [0]) ∧
    seen (step (started 0x2C54 [])) (·.status) = some .encodingError ∧
    seen (step (started 0x2054 (List.replicate 256 0))) (·.status) = some .encodingError := by decide +kernel

/-- V26, the longest frame, and V22: `RES_LEN` counts the delimiter. -/
theorem test_resLen :
    seen (step (started 0x28FF (List.replicate 255 0xFF))) (fun t => t.resLen.toNat) = some 777 ∧
    seen (step (started 0x2054 [])) (fun t => t.resLen.toNat) = some 11 := by
  have h1 : (frame 0xFF .both (started 0x28FF (List.replicate 255 0xFF)).operand).length = 777 := by decide +kernel
  have h2 : (frame 0x54 .left (started 0x2054 []).operand).length = 11 := by decide +kernel
  have e1 : encodeOperands? 2 (started 0x28FF (List.replicate 255 0xFF)).operand = some .both := by decide +kernel
  constructor
  · show seen (execEncode false 2 0xFF { started 0x28FF (List.replicate 255 0xFF) with start := false }) _ = _
    unfold execEncode
    rw [show ({ started 0x28FF (List.replicate 255 0xFF) with start := false } : State).operand =
      (started 0x28FF (List.replicate 255 0xFF)).operand from rfl, e1]
    exact congrArg some ((resLenOf_toNat _ (Nat.le_of_eq h1)).trans h1)
  · exact congrArg some ((resLenOf_toNat _ (Nat.le_trans (Nat.le_of_eq h2) (by decide))).trans h2)

/-! ## DECODE (V27 to V49) -/

theorem test_decode_data :
    decodeFrame (ascii "#54,0,6,C8,00,C8,00,C8,00,76") = .data ⟨0x54, .left, [0xC8, 0, 0xC8, 0, 0xC8, 0], 0x76⟩ ∧
    decodeFrame (ascii "#54,0,6,c8,00,c8,00,c8,00,01") = .data ⟨0x54, .left, [0xC8, 0, 0xC8, 0, 0xC8, 0], 0x01⟩ ∧
    decodeFrame (ascii "#54,0,0,b0") = .data ⟨0x54, .left, [], 0xB0⟩ ∧
    decodeFrame (ascii "#54,0,01,7F,8B") = .data ⟨0x54, .left, [0x7F], 0x8B⟩ ∧
    decodeFrame (ascii "#54,0,0000000000,3B") = .data ⟨0x54, .left, [], 0x3B⟩ ∧
    decodeFrame (ascii "#54,0,2,0a,Fb,AF") = .data ⟨0x54, .left, [0x0A, 0xFB], 0xAF⟩ ∧
    decodeFrame (ascii "#a5,0,1,01,89") = .data ⟨0xA5, .left, [0x01], 0x89⟩ ∧
    decodeFrame (ascii "#31,2,5,01,02,03,04,05,CE") = .data ⟨0x31, .both, [1, 2, 3, 4, 5], 0xCE⟩ ∧
    ["#A", "#ACK", "#A5,0,1,01,84"].all (fun t => decodeFrame (ascii t) = .ack) = true ∧
    ["#N", "#NAK", "#N4,0,0,B0"].all (fun t => decodeFrame (ascii t) = .nack) = true := by decide +kernel

theorem test_decode_errors :
    (["$54,0,0,B0", "", "A", "N", "#", "#a", "#n", "#54,0,0,B", "#54,0,0,0B0", "#54,0,0,B0 ", "#54", "#5400B0", "#54,78", "#,",
      "#,5B", "#54,0,5,01,02,03,5B", "#54,0,1,01,02,FF", "#54,0,100,B0", "#54,0,FF,61", "#54,0,,AD", "#54,0,0g,1E", "#54,3,0,6C",
      "#54,00,0,A1", "#54,,0,B1", "#54, 0,0,FB", "#5,0,0,53", "#054,0,0,C9", "#n5,0,0,A8", "#54,0,1,1,83", "#54,0,1,011,F0",
      "#54,0,1,G1,8B", "#54,0,0,,28"].all (fun t => decodeFrame (ascii t) = .error .malformedFrame) = true) ∧
    decodeFrame (ascii "#54,0,1," ++ [0x80, 0x80] ++ ascii ",D0") = .error .malformedFrame ∧
    ["#54,0,0,B1", "#54,B0", "#,00", "#54,0,5,01,02,03,00", "##54,0,0,B0", "#55,1,2,12,35,3E", "#55,1,2,12,34,3F"].all
      (fun t => decodeFrame (ascii t) = .error .checksumError) = true := by decide +kernel

/-- V49: `#A` and `x`s, one byte longer than `LINE_MAX`, and of `LINE_MAX` bytes. -/
theorem test_decode_line_max :
    decodeFrame (ascii "#A" ++ List.replicate (Config.lineMax - 1) 0x78) = .error .malformedFrame ∧
    decodeFrame (ascii "#A" ++ List.replicate (Config.lineMax - 2) 0x78) = .ack := by
  have hge := lineMax_ge
  have ha : ascii "#A" = [0x23, 0x41] := by decide +kernel
  rw [ha]
  constructor
  · unfold decodeFrame
    rw [classify_of_overlong ((overlong_iff _).mpr (by simp; omega))]
    rfl
  · show received (classify (Config.headMarker :: Config.kindAck :: _)) = _
    rw [classify_ack (overlong_eq_false (by simp; omega))]
    rfl

/-- P9 operation 3, and V28: the latches DECODE defines. -/
theorem test_exec_decode :
    answers (step (started 0x6000 (ascii "#54,0,6,C8,00,C8,00,C8,00,76")))
      (fun t => t.status == .ok && t.hasPayload && t.resKind == 0 && t.resCmd == 0x54 && t.resSide == 0 &&
        t.resBuf.bytes == [0xC8, 0, 0xC8, 0, 0xC8, 0] && t.resCk == 0x76) = true ∧
    seen (step (started 0x6000 (ascii "#N4,0,0,B0"))) (fun t => (t.status, t.resKind)) = some (.commandRejected, 2) ∧
    seen (step (started 0x6000 (ascii "#A"))) (fun t => (t.status, t.resKind, t.hasPayload)) = some (.ok, 1, false) := by
  decide +kernel

/-! ## SEND (V50 to V53) -/

theorem test_exec_send :
    seen (step (started 0x4455 [])) (fun t => (t.status, t.tx, t.mem)) =
      some (.ok, ascii "#55,1,0,A4" ++ [0], one 0x55 ⟨some .right, none⟩) ∧
    seen (step (startedOver (one 0x55 ⟨none, some ⟨.right, [0x01]⟩⟩) 0x4055 [])) (fun t => (t.status, t.tx, t.mem)) =
      some (.ok, ascii "#55,0,0,10" ++ [0], one 0x55 ⟨some .left, none⟩) := by decide +kernel

theorem test_exec_send_refused :
    seen (step (startedOver (one 0x55 ⟨some .right, none⟩) 0x4455 [])) (fun t => (t.status, t.tx, t.mem)) =
      some (.busy, [], one 0x55 ⟨some .right, none⟩) ∧
    seen (step (started 0x4C55 [])) (fun t => (t.status, t.tx, t.mem)) = some (.encodingError, [], []) := by decide +kernel

/-! ## AWAIT: its beginning, the timeout, the four rows of a line (V54 to V60, V64) -/

theorem test_exec_await :
    seen (step { started 0x8C55 [] with rx := [.line (ascii "#A")] }) (fun t => (t.status, t.waiting, t.rx)) =
      some (.encodingError, none, [.line (ascii "#A")]) ∧
    seen (step { started 0x9455 [] with rx := [.line (ascii "#A")] }) (fun t => (t.waiting, t.rx)) =
      some (some ⟨0x55, .right, true⟩, [.line (ascii "#A")]) := by decide +kernel

/-- V56, the last event. -/
theorem test_step_timeout :
    seen (step (waitingFor false (one 0x55 ⟨some .right, some ⟨.right, [7]⟩⟩) [.timeout])) (fun t => (t.status, t.waiting, t.mem)) =
      some (.responseTimeout, none, []) := by decide

/-- V64. -/
theorem test_exec_nack :
    seen (step (waitingFor false (one 0x23 ⟨some .left, some ⟨.left, [0xAB]⟩⟩) [.line (ascii "#N")]))
      (fun t => (t.status, t.waiting, t.mem)) = some (.commandRejected, none, one 0x23 ⟨some .left, some ⟨.left, [0xAB]⟩⟩) := by
  decide +kernel

/-- V57 and V59: the payload comes though `ack_only` is set; the wrong side. -/
theorem test_exec_ack_buffered :
    answers (step (waitingFor true (one 0x55 ⟨none, some ⟨.right, [0x12, 0x34]⟩⟩) [.line (ascii "#A")]))
      (fun t => t.status == .ok && t.hasPayload && t.resSide == 1 && t.resBuf.bytes == [0x12, 0x34] && t.mem == []) = true ∧
    seen (step (waitingFor false (one 0x55 ⟨none, some ⟨.both, [0x12, 0x34]⟩⟩) [.line (ascii "#A")]))
      (fun t => (t.status, t.mem)) = some (.channelMismatch, []) := by decide +kernel

/-- P1 and V56. -/
theorem test_exec_ack_unbuffered :
    seen (step (waitingFor true (one 0x55 ⟨some .right, none⟩) [.line (ascii "#A")])) (fun t => (t.status, t.hasPayload, t.mem)) =
      some (.ok, false, []) ∧
    seen (step (waitingFor false (one 0x55 ⟨some .right, none⟩) [.line (ascii "#A"), .timeout])) (fun t => (t.waiting.isSome, t.rx, t.mem)) =
      some (true, [.timeout], one 0x55 ⟨some .right, none⟩) := by decide +kernel

/-- V55 (the second line replaces the first payload) and P3 (the line of another id). -/
theorem test_exec_data :
    seen (step (waitingFor false (one 0x55 ⟨some .right, some ⟨.right, [0x01]⟩⟩) [.line (ascii "#55,1,2,02,03,59")]))
      (fun t => (t.waiting.isSome, t.mem)) = some (true, one 0x55 ⟨some .right, some ⟨.right, [0x02, 0x03]⟩⟩) ∧
    seen (step (waitingFor false (one 0x55 ⟨some .right, none⟩) [.line (ascii "#23,0,1,AB,70")]))
      (fun t => (t.waiting.isSome, t.mem)) =
        some (true, [(0x23, ⟨none, some ⟨.left, [0xAB]⟩⟩), (0x55, ⟨some .right, none⟩)]) := by decide +kernel

/-- V60 and P5: the line is consumed, the record stays. -/
theorem test_exec_data_bad :
    seen (step (waitingFor false (one 0x55 ⟨some .right, none⟩) [.line (ascii "#55,1,2,12,35,3E")]))
      (fun t => (t.status, t.rx, t.mem)) = some (.checksumError, [], one 0x55 ⟨some .right, none⟩) := by
  decide +kernel

theorem test_exec_malformed :
    seen (step (waitingFor false (one 0x55 ⟨some .right, none⟩) [.line (ascii "55")])) (fun t => (t.status, t.rx, t.mem)) =
      some (.malformedFrame, [], one 0x55 ⟨some .right, none⟩) := by decide +kernel

/-! ## FETCH (V61, V62) and the reserved words (V63) -/

theorem test_exec_fetch :
    answers (step (startedOver (one 0x23 ⟨none, some ⟨.left, [0xAB]⟩⟩) 0xA023 []))
      (fun t => t.status == .ok && t.hasPayload && t.resSide == 0 && t.resBuf.bytes == [0xAB] && t.mem == []) = true ∧
    seen (step (started 0xA023 [])) (fun t => (t.status, t.hasPayload, t.mem)) = some (.ok, false, []) := by decide

theorem test_exec_reserved :
    [0xC000, 0xE000, 0x4155, 0x8255].map (fun w => seen (step (started w [])) (fun t => (t.status, t.tx, t.mem))) =
      List.replicate 4 (some (.illegalOp, [], [])) := by decide

/-- The codes of 10_state.md R21. -/
theorem test_status_codes :
    [Status.ok, .malformedFrame, .checksumError, .commandRejected, .channelMismatch, .responseTimeout, .encodingError, .busy,
      .illegalOp].map Status.code = [0, 1, 2, 3, 4, 5, 6, 7, 8] := by decide

/-! ## Witnesses: states and operands that meet the hypotheses of each statement -/

/-- The invariant of a state whose table is in canonical form and whose payloads are short, with nothing sent. -/
theorem inv_of (s : State) (h1 : s.mem.wf) (h2 : ∀ x ∈ s.mem, ∀ b ∈ x.2.buf, b.data.length ≤ 255) (h3 : s.tx = []) :
    EngineInv s := by
  refine ⟨h1, ?_, [], by simp [IsFrames, h3]⟩
  intro c b hb
  have key : ∀ m : Memory, (∀ x ∈ m, ∀ b ∈ x.2.buf, b.data.length ≤ 255) → (m.read c.toNat).buf = some b →
      b.data.length ≤ 255 := by
    intro m
    induction m with
    | nil => intro _ h; cases h
    | cons x rest ih =>
      intro hm h
      rw [show x = (x.1, x.2) from rfl, Memory.read_cons] at h
      split at h
      · exact hm x (by simp) b h
      · exact ih (fun y hy => hm y (List.mem_cons_of_mem _ hy)) h
  exact key s.mem h2 hb

/-- A wait for 0x55 whose entry is Buffered. -/
def wBuffered (side : Side) (ev : List Event) : State := waitingFor false (one 0x55 ⟨some .right, some ⟨side, [0x12]⟩⟩) ev

/-- A wait for 0x55 whose entry is Sent. -/
def wSent (ackOnly : Bool) (ev : List Event) : State := waitingFor ackOnly (one 0x55 ⟨some .right, none⟩) ev

theorem wBuffered_inv (side : Side) (ev : List Event) : EngineInv (wBuffered side ev) := by
  refine inv_of _ (by show Memory.wf (one _ _); unfold one; cases side <;> decide) ?_ rfl
  intro x hx b hb
  obtain rfl := List.mem_singleton.mp hx
  cases hb
  exact (by decide : [0x12#8].length ≤ 255)

theorem wSent_inv (ackOnly : Bool) (ev : List Event) : EngineInv (wSent ackOnly ev) := by
  refine inv_of _ (by show Memory.wf (one _ _); decide) ?_ rfl
  intro x hx b hb
  obtain rfl := List.mem_singleton.mp hx
  cases hb

/-- After reset with an operation started, the invariant holds. -/
theorem started_inv (w : CommandWord) (operand : List Byte) : EngineInv (started w operand) :=
  inv_of _ (by show Memory.wf []; decide) (by intro x hx; cases hx) rfl

theorem witness_DecodeOfEncode : wellFormed (.data (ascii "54,0,0,B0")) = true := test_wellFormed_lines.2.2.1

theorem witness_StepRunsStartedCommand :
    (started 0x4455 []).rst = false ∧ (started 0x4455 []).waiting = none ∧ (started 0x4455 []).start = true := by decide

theorem witness_StepRunsReceivedLine :
    (wSent true [.line (ascii "#A"), .timeout]).rst = false ∧
    (wSent true [.line (ascii "#A"), .timeout]).waiting = some ⟨0x55, .right, true⟩ ∧
    (wSent true [.line (ascii "#A"), .timeout]).rx = .line (ascii "#A") :: [.timeout] := ⟨rfl, rfl, rfl⟩

theorem witness_StepIdleOrBlocked :
    (State.reset.rst = false ∧ State.reset.waiting = none ∧ State.reset.start = false) ∧
    ((wSent true []).rst = false ∧ (wSent true []).waiting ≠ none ∧ (wSent true []).rx = []) := by decide

theorem witness_TimeoutEndsWait :
    EngineInv (wBuffered .left [.timeout]) ∧ (wBuffered .left [.timeout]).rst = false ∧
    (wBuffered .left [.timeout]).waiting = some ⟨0x55, .right, false⟩ ∧ (wBuffered .left [.timeout]).rx = .timeout :: [] :=
  ⟨wBuffered_inv _ _, rfl, rfl, rfl⟩

theorem witness_ResetEventState : (wSent true []).assertReset.rst = true := rfl

theorem witness_ChecksumCompletes :
    (started 0x0000 []).opLen = 0 ∧ (started 0x0000 [0, 0, 0x31]).operand = List.replicate 2 0x00 ++ [0x31] := by decide

theorem witness_CrcLinear : [0x01#8, 0x02#8].length = [0xFF#8, 0x00#8].length := rfl

theorem witness_FrameLayout :
    ([] : List Byte).length ≤ 255 ∧ (List.replicate 15 0xAB#8).length ≤ 15 ∧ 16 ≤ (List.replicate 16 0xAB#8).length ∧
    (List.replicate 255 0xAB#8).length ≤ 255 ∧ 254 < (List.replicate 255 0xAB#8).length := by decide +kernel

theorem witness_EncodeCompletes :
    sideOf 2 = some .both ∧ (started 0x28FF (List.replicate 255 0xFF)).operand.length ≤ 255 := by decide +kernel

theorem witness_BadOperandsRefused :
    255 < (started 0x2054 (List.replicate 256 0x00)).operand.length ∧ (cwSide 0x4C55 = 3) := by decide +kernel

theorem witness_SendCompletes :
    sideOf 1 = some .right ∧ (started 0x4455 [0x01]).operand.length ≤ 255 ∧ ((started 0x4455 [0x01]).tabRead 0x55).pending = none := by
  decide

theorem witness_SendWhilePendingIsBusy :
    sideOf 0 = some .left ∧ (startedOver (one 0x55 ⟨some .right, none⟩) 0x4055 []).operand.length ≤ 255 ∧
    ((startedOver (one 0x55 ⟨some .right, none⟩) 0x4055 []).tabRead 0x55).pending ≠ none := by decide

theorem witness_LineKinds :
    (0x24#8 ≠ 0x23) ∧ (List.replicate (Config.lineMax - 2) 0x78#8).length + 2 ≤ Config.lineMax := by
  have := lineMax_ge
  exact ⟨by decide, by simp; omega⟩

theorem witness_OverlongLineMalformed :
    Config.lineMax < (List.replicate (Config.lineMax + 1) 0x78#8).length ∧ (List.replicate 255 0x00#8).length ≤ 255 := by
  rw [List.length_replicate, List.length_replicate]
  omega

/-- Each clause: no comma; a comma and no checksum field; a checksum that differs (V32a); one that is right (V33b, V34). -/
theorem witness_ChecksumBeforeFields :
    ((ascii "5400B0").length + 1 ≤ Config.lineMax ∧ (ascii "5400B0").head? ≠ some 0x4E ∧ (ascii "5400B0").head? ≠ some 0x41 ∧
      0x2C ∉ ascii "5400B0") ∧
    (ascii "54,0,0,B" = ascii "54,0,0" ++ 0x2C :: ascii "B" ∧ 0x2C ∉ ascii "B" ∧
      ¬ ∃ a b, ascii "B" = [a, b] ∧ isHex a = true ∧ isHex b = true) ∧
    (ascii "54,0,0,B1" = ascii "54,0,0" ++ 0x2C :: [0x42, 0x31] ∧ 0x2C ∉ [0x42#8, 0x31#8] ∧ isHex 0x42 = true ∧ isHex 0x31 = true ∧
      (checksum (0x23 :: (ascii "54,0,0" ++ [0x2C]))).toNat ≠ 16 * hexVal 0x42 + hexVal 0x31) ∧
    (checksum (0x23 :: (ascii "54" ++ [0x2C]))).toNat = 16 * hexVal 0x37 + hexVal 0x38 ∧
    (checksum (0x23 :: (ascii "54,0,3,01,02,03" ++ [0x2C]))).toNat = 16 * hexVal 0x41 + hexVal 0x46 := by
  have hge := lineMax_ge
  have hl : (ascii "5400B0").length + 1 ≤ 776 := by decide +kernel
  refine ⟨⟨Nat.le_trans hl hge, by decide +kernel, by decide +kernel, by decide +kernel⟩, ⟨by decide +kernel, by decide +kernel, ?_⟩,
    by decide +kernel, by decide +kernel, by decide +kernel⟩
  rintro ⟨a, b, h, -⟩
  have h1 : (ascii "B").length = 1 := by decide +kernel
  rw [h] at h1
  cases h1

theorem witness_DataLinesExactly :
    decodeFrame (ascii "#54,0,01,7F,8B") = .data ⟨0x54, .left, [0x7F], 0x8B⟩ := test_decode_data.2.2.2.1

/-- The ids at both ends of the collision, and their neighbours. -/
theorem witness_DecodeOfEncodedFrame :
    (List.replicate 255 0x00#8).length ≤ 255 ∧ (0xA0 ≤ (0xA0#8).toNat ∧ (0xA0#8).toNat ≤ 0xAF) ∧
    (0xA0 ≤ (0xAF#8).toNat ∧ (0xAF#8).toNat ≤ 0xAF) ∧ ¬ (0xA0 ≤ (0x9F#8).toNat) ∧ ¬ ((0xB0#8).toNat ≤ 0xAF) := by
  decide +kernel

/-- Both ends of each range of digits, and of `HEXN`'s two. -/
theorem witness_HexRoundTrip :
    (∀ ch ∈ [0x30#8, 0x39#8], 0x30 ≤ ch.toNat ∧ ch.toNat ≤ 0x39) ∧ (∀ ch ∈ [0x41#8, 0x46#8], 0x41 ≤ ch.toNat ∧ ch.toNat ≤ 0x46) ∧
    (∀ ch ∈ [0x61#8, 0x66#8], 0x61 ≤ ch.toNat ∧ ch.toNat ≤ 0x66) ∧ (0x0F#8).toNat ≤ 15 ∧ 16 ≤ (0x10#8).toNat := by decide

theorem witness_DecodeCompletes :
    decodeFrame (started 0x6000 (ascii "#54,0,0,B0")).operand = .data ⟨0x54, .left, [], 0xB0⟩ ∧
    decodeFrame (started 0x6000 (ascii "#A")).operand = .ack ∧ decodeFrame (started 0x6000 (ascii "#N")).operand = .nack ∧
    decodeFrame (started 0x6000 (ascii "#54,0,0,B1")).operand = .error .checksumError ∧
    decodeFrame (started 0x6000 []).operand = .error .malformedFrame := by decide +kernel

theorem witness_AwaitBegins : sideOf 0 = some .left ∧ sideOf 1 = some .right ∧ sideOf 2 = some .both := by decide

theorem witness_NackEndsWait :
    EngineInv (wBuffered .right []) ∧ (wBuffered .right []).waiting = some ⟨0x55, .right, false⟩ := ⟨wBuffered_inv _ _, rfl⟩

/-- The expected side, and another. -/
theorem witness_AckWithBufferedPayload :
    (EngineInv (wBuffered .right []) ∧ (wBuffered .right []).waiting = some ⟨0x55, .right, false⟩ ∧
      ((wBuffered .right []).tabRead 0x55).buf = some ⟨.right, [0x12]⟩) ∧
    (EngineInv (wBuffered .both []) ∧ (wBuffered .both []).waiting = some ⟨0x55, .right, false⟩ ∧
      ((wBuffered .both []).tabRead 0x55).buf = some ⟨.both, [0x12]⟩ ∧ Side.both ≠ Side.right) :=
  ⟨⟨wBuffered_inv _ _, rfl, rfl⟩, wBuffered_inv _ _, rfl, rfl, by decide⟩

theorem witness_AckWithNothingBuffered :
    (EngineInv (wSent true []) ∧ (wSent true []).waiting = some ⟨0x55, .right, true⟩ ∧ ((wSent true []).tabRead 0x55).buf = none) ∧
    (EngineInv (wSent false []) ∧ (wSent false []).waiting = some ⟨0x55, .right, false⟩ ∧
      ((wSent false []).tabRead 0x55).buf = none) :=
  ⟨⟨wSent_inv _ _, rfl, rfl⟩, wSent_inv _ _, rfl, rfl⟩

theorem witness_DataFrameStored :
    (wSent false []).waiting = some ⟨0x55, .right, false⟩ ∧ parseData (ascii "23,0,1,AB,70") = .ok ⟨0x23, .left, [0xAB], 0x70⟩ :=
  ⟨rfl, by decide +kernel⟩

theorem witness_BadLineEndsWait :
    (wSent false []).waiting = some ⟨0x55, .right, false⟩ ∧
    parseData (ascii "55,1,2,12,35,3E") = .error .checksumError ∧ parseData [] = .error .malformedFrame :=
  ⟨rfl, by decide +kernel, by decide +kernel⟩

theorem witness_FetchCompletes :
    EngineInv (wBuffered .left []) ∧ ((wBuffered .left []).tabRead 0x55).buf = some ⟨.left, [0x12]⟩ ∧
    ((wBuffered .left []).tabRead 0x54).buf = none := ⟨wBuffered_inv _ _, rfl, rfl⟩

/-- Each way a word is reserved; a word that is not; and the state. -/
theorem witness_ReservedWordsOnly :
    ReservedWord 0xC000 ∧ ReservedWord 0xE000 ∧ ReservedWord 0x4155 ∧ ReservedWord 0x8255 ∧ ¬ ReservedWord 0xBCFF ∧
    (started 0xBCFF []).rst = false ∧ (started 0xBCFF []).waiting = none ∧ (started 0xBCFF []).start = true ∧
    (started 0xBCFF []).status ≠ .illegalOp := by
  unfold ReservedWord
  decide

theorem witness_StepKeepsInvariant : EngineInv (started 0x4455 [0x01]) ∧ ∃ t, step (started 0x4455 [0x01]) = .next t :=
  ⟨started_inv _ _, _, rfl⟩

/-- An entry that changes by each of the three ways. -/
theorem witness_OnlyNamedEntriesChange :
    (∃ t, step (started 0x4455 []) = .next t ∧ t.tabRead 0x55 ≠ (started 0x4455 []).tabRead 0x55) ∧
    (∃ t, step (wSent false [.timeout]) = .next t ∧ t.tabRead 0x55 ≠ (wSent false [.timeout]).tabRead 0x55) ∧
    (∃ t, step (wSent false [.line (ascii "#23,0,1,AB,70")]) = .next t ∧
      t.tabRead 0x23 ≠ (wSent false [.line (ascii "#23,0,1,AB,70")]).tabRead 0x23) := by
  refine ⟨⟨_, rfl, by decide⟩, ⟨_, rfl, by decide⟩, ?_⟩
  have h : seen (step (wSent false [.line (ascii "#23,0,1,AB,70")])) (fun t => decide (t.tabRead 0x23 = Entry.idle)) = some false := by
    decide +kernel
  generalize ho : step (wSent false [.line (ascii "#23,0,1,AB,70")]) = o at h
  cases o with
  | next t =>
    refine ⟨t, rfl, ?_⟩
    rw [show (wSent false [.line (ascii "#23,0,1,AB,70")]).tabRead 0x23 = Entry.idle from rfl]
    simpa [seen] using h
  | fault r => cases h
  | refused r => cases h

theorem witness_EntryTransitions :
    (EngineInv (started 0x4455 []) ∧ (started 0x4455 []).rst = false ∧
      ∃ t, step (started 0x4455 []) = .next t ∧ t.tabRead 0x55 ≠ (started 0x4455 []).tabRead 0x55) ∧
    (EngineInv (wSent false [.timeout]) ∧ (wSent false [.timeout]).rst = false ∧
      ∃ t, step (wSent false [.timeout]) = .next t ∧ t.tabRead 0x55 ≠ (wSent false [.timeout]).tabRead 0x55) ∧
    (EngineInv (wSent false [.line (ascii "#23,0,1,AB,70")]) ∧ (wSent false [.line (ascii "#23,0,1,AB,70")]).rst = false ∧
      ∃ t, step (wSent false [.line (ascii "#23,0,1,AB,70")]) = .next t ∧
        t.tabRead 0x23 ≠ (wSent false [.line (ascii "#23,0,1,AB,70")]).tabRead 0x23) :=
  ⟨⟨started_inv _ _, rfl, witness_OnlyNamedEntriesChange.1⟩, ⟨wSent_inv _ _, rfl, witness_OnlyNamedEntriesChange.2.1⟩,
    wSent_inv _ _, rfl, witness_OnlyNamedEntriesChange.2.2⟩

theorem witness_TxGrowsBySendOnly :
    (started 0x4455 []).rst = false ∧ ∃ t, step (started 0x4455 []) = .next t ∧ t.tx ≠ (started 0x4455 []).tx :=
  ⟨rfl, _, rfl, by decide⟩

theorem witness_EventsConsumedInWaitOnly :
    (∃ t, step (wSent false [.timeout]) = .next t ∧ (wSent false [.timeout]).rst = false ∧ (wSent false [.timeout]).waiting ≠ none) ∧
    (∃ t, step (started 0x4455 []) = .next t ∧ (started 0x4455 []).waiting = none) ∧
    (∃ t, step (wSent false [.timeout]).assertReset = .next t ∧ (wSent false [.timeout]).assertReset.rst = true) :=
  ⟨⟨_, rfl, rfl, by decide⟩, ⟨_, rfl, rfl⟩, _, rfl, rfl⟩

theorem witness_ResultsHeldUntilEnd :
    (∃ t, step (started 0x8455 []) = .next t ∧ (started 0x8455 []).rst = false ∧ t.waiting ≠ none) ∧
    (∃ t, step State.reset = .next t ∧ State.reset.waiting = none ∧ State.reset.start = false) :=
  ⟨⟨_, rfl, rfl, by decide⟩, _, rfl, rfl, rfl⟩

theorem witness_OperandLatchesKept : (started 0x4455 [0x01]).rst = false ∧ ∃ t, step (started 0x4455 [0x01]) = .next t :=
  ⟨rfl, _, rfl⟩

theorem witness_LatchesSampledAtBegin : (wSent false [.timeout]).rst = false ∧ (wSent false [.timeout]).waiting ≠ none := by decide

/-- An event that ends the wait, and one that does not: `ev` is the Ack, `rest` is empty. -/
theorem witness_WhatEndsAWait :
    ((wSent true [.line (ascii "#A")]).rst = false ∧ (wSent true [.line (ascii "#A")]).waiting = some ⟨0x55, .right, true⟩ ∧
      (wSent true [.line (ascii "#A")]).rx = .line (ascii "#A") :: [] ∧
      seen (step (wSent true [.line (ascii "#A")])) (fun t => t.waiting) = some none) ∧
    ((wSent false [.line (ascii "#A")]).rst = false ∧ (wSent false [.line (ascii "#A")]).waiting = some ⟨0x55, .right, false⟩ ∧
      (wSent false [.line (ascii "#A")]).rx = .line (ascii "#A") :: [] ∧
      seen (step (wSent false [.line (ascii "#A")])) (fun t => t.waiting.isSome) = some true) :=
  ⟨⟨rfl, rfl, rfl, by decide +kernel⟩, rfl, rfl, rfl, by decide +kernel⟩

/-- V56: two Acks are consumed, then the timeout ends the wait. -/
theorem witness_AwaitRunsReadLoop :
    (waitingFor false [] [.line (ascii "#A"), .line (ascii "#A"), .timeout]).rst = false ∧
    (waitingFor false [] [.line (ascii "#A"), .line (ascii "#A"), .timeout]).waiting = some ⟨0x55, .right, false⟩ ∧
    (readLoop ⟨0x55, .right, false⟩ [] [.line (ascii "#A"), .line (ascii "#A"), .timeout]).outcome =
      some (.responseTimeout, ⟨none, none, none, none, none, none⟩) := by decide +kernel

/-- P2, with the answer's line as the spec writes it. -/
theorem witness_TransactionDeliversPayload :
    let s := { State.reset with rx := [.line (ascii "#55,1,2,12,34,3E"), .line (ascii "#A")] }
    EngineInv s ∧ s.rst = false ∧ s.waiting = none ∧ (s.tabRead 0x55).pending = none ∧
    ¬ (0xA0 ≤ (0x55#8).toNat ∧ (0x55#8).toNat ≤ 0xAF) ∧ ([] : List Byte).length ≤ 255 ∧ [0x12#8, 0x34#8].length ≤ 255 ∧
    ([] : List Byte).length + 2 ≤ Config.lineMax ∧
    s.rx = .line (frameLine 0x55 .right [0x12, 0x34]) :: .line (0x23 :: 0x41 :: []) :: [] := by
  refine ⟨inv_of _ (by show Memory.wf []; decide) (by intro x hx; cases hx) rfl, rfl, rfl, rfl, by decide, by decide, by decide,
    ?_, by decide +kernel⟩
  exact Nat.le_trans (by decide) lineMax_ge

theorem witness_ExpSideNeverRead :
    (wSent false [.timeout]).mem.wf ∧ (waitingFor false (one 0x55 ⟨some .left, none⟩) [.timeout]).mem.wf ∧
    SameButExpSides (wSent false [.timeout]) (waitingFor false (one 0x55 ⟨some .left, none⟩) [.timeout]) ∧
    ∃ t, step (wSent false [.timeout]) = .next t := by
  refine ⟨by show Memory.wf (one _ _); decide, by show Memory.wf (one _ _); decide, ⟨?_, rfl⟩, _, rfl⟩
  intro c
  show forgetExpSide (Memory.read [(0x55, _)] c.toNat) = forgetExpSide (Memory.read [(0x55, _)] c.toNat)
  by_cases h : c.toNat = 0x55 <;> simp [Memory.read, h, forgetExpSide]

/-- An index below `OP_LEN`, at the end of the range, and one after the operand issued. -/
theorem witness_OperandWithinBuffer :
    2 < (started 0x0000 [1, 2, 3]).opLen.val ∧ 2 < Config.lineMax ∧ (operandOf [1, 2, 3]).bytes.length ≤ 775 ∧
    775 < Config.lineMax := by
  have := lineMax_ge
  exact ⟨by decide, by omega, by decide, by omega⟩

/-- Operands at both sides of the bound on a whole frame, an entry that is not pending, and a delivered payload. -/
theorem witness_ResultLatchesHoldResults :
    (sideOf 2 = some .both ∧ (started 0x28FF (List.replicate 255 0xFF)).operand.length ≤ 255) ∧
    (started 0x48FF (List.replicate 254 0xFF)).operand.length < 255 ∧ ((started 0x48FF (List.replicate 254 0xFF)).tabRead 0xFF).pending = none ∧
    ((List.replicate 255 0xAB#8).length ≤ 255 ∧
      BytesDelivered (List.replicate 255 0xAB) (State.reset.finish .ok { bytes := some (List.replicate 255 0xAB) })) :=
  ⟨by decide +kernel, by decide +kernel, rfl, by decide +kernel, bytesDelivered_finish _ _ _ _ rfl (by decide +kernel)⟩

/-- What `FieldFailuresMalformed` asks of fields and checksum digits. -/
def FieldsMeet (fields : List (List Byte)) (a b : Byte) : Prop :=
  let region : List Byte := 0x23 :: fields.flatMap (fun f => f ++ [0x2C])
  fields ≠ [] ∧ (∀ f ∈ fields, 0x2C ∉ f) ∧ isHex a = true ∧ isHex b = true ∧ region.length + 2 ≤ 776 ∧
    region[1]? ≠ some 0x4E ∧ region[1]? ≠ some 0x41 ∧ (checksum region).toNat = 16 * hexVal a + hexVal b

/-- Two fields with the checksum (V33b), one field for each way a check fails (V38b, V38d, V39, V40, V41), too few and too many
payload fields (V35, V37), and a line that passes (V34). -/
theorem witness_FieldFailuresMalformed :
    776 ≤ Config.lineMax ∧
    FieldsMeet [ascii "54"] 0x37 0x38 ∧
    FieldsMeet [ascii "5", ascii "0", ascii "0"] 0x35 0x33 ∧
    FieldsMeet [ascii "54", ascii "3", ascii "0"] 0x36 0x43 ∧
    FieldsMeet [ascii "54", ascii "0", []] 0x41 0x44 ∧
    FieldsMeet [ascii "54", ascii "0", ascii "100"] 0x42 0x30 ∧
    FieldsMeet [ascii "54", ascii "0", ascii "5", ascii "01", ascii "02", ascii "03"] 0x35 0x42 ∧
    FieldsMeet [ascii "54", ascii "0", ascii "1", ascii "01", ascii "02"] 0x46 0x46 ∧
    FieldsMeet [ascii "54", ascii "0", ascii "1", ascii "G1"] 0x38 0x42 ∧
    FieldsMeet [ascii "54", ascii "0", ascii "3", ascii "01", ascii "02", ascii "03"] 0x41 0x46 := by
  refine ⟨lineMax_ge, ?_, ?_, ?_, ?_, ?_, ?_, ?_, ?_, ?_⟩ <;> (unfold FieldsMeet; decide +kernel)

end Sys2Proof.Tests
end

/-! PROOF. The statements of 10_state.md: the invariant, and what a step may do to the streams, the operand latches and
the result latches. -/

namespace Sys2Proof.Machine

open Sys2Proof.Safety

/-! ## What a step without reset is made of -/

/-- A command's instruction is no row of the wire, so what a wait runs never sends. -/
theorem toInstr_ne_send (k : LineKind) (ao : Bool) (sd : BitVec 2) (c : Byte) : k.toInstr ≠ .send ao sd c := by
  cases k <;> nofun

/-- With the reset pin asserted a step is the reset event. -/
theorem step_of_reset {s t : State} (hr : s.rst = true) (h : step s = .next t) : t = s.resetEvent := by
  simpa [hr] using step_effect h

/-- A step without reset: nothing to do, the started command's effect, or in a wait the effect of a line once the first
event is consumed. A timeout empties the awaited entry, which is among the effects of every line. -/
theorem step_without_reset {s t : State} (hr : s.rst = false) (h : step s = .next t) :
    (t = s ∧ (s.waiting = none ∧ s.start = false ∨ s.waiting ≠ none ∧ s.rx = [])) ∨
    (s.waiting = none ∧ s.start = true ∧ Effect (decode (.commandWord s.cw)) { s with start := false } t) ∨
    (s.waiting ≠ none ∧ ∃ k : LineKind, Effect k.toInstr { s with rx := s.rx.tail } t) := by
  obtain ⟨h1, -⟩ | ⟨-, hw, hs, ht⟩ | ⟨-, hw, hs, hE⟩ | ⟨-, w, hw, hev⟩ := step_effect h
  · simp [hr] at h1
  · exact .inl ⟨ht, .inl ⟨hw, hs⟩⟩
  · exact .inr (.inl ⟨hw, hs, hE⟩)
  · have hne : s.waiting ≠ none := by simp [hw]
    obtain ⟨hx, ht⟩ | ⟨rest, hx, rfl⟩ | ⟨bytes, rest, hx, -, hE⟩ := hev
    · exact .inl ⟨ht, .inr ⟨hne, hx⟩⟩
    · exact .inr (.inr ⟨hne, .malformed [], by rw [hx]; exact .emptied _ _ _ (.inr ⟨w, hw, rfl⟩)⟩)
    · exact .inr (.inr ⟨hne, classify bytes, by rw [hx]; exact hE⟩)

/-! ## What an instruction leaves unchanged -/

section
variable {i : Instr} {s t : State}

/-- No instruction reads receive events: the step has taken the event before. -/
theorem Effect.rx_eq (h : Effect i s t) : t.rx = s.rx := by
  cases h <;> rfl

/-- No instruction writes the operand latches or the inputs of the host port. -/
theorem Effect.portSame (h : Effect i s t) : PortSame s t := by
  cases h <;> exact ⟨rfl, rfl, rfl, rfl, rfl⟩

/-- `TX` stays, or a SEND with a good side has ended well and appended its frame. -/
theorem Effect.tx_cases (h : Effect i s t) :
    t.tx = s.tx ∨ (t.status = .ok ∧ ∃ ao sd c side, i = .send ao sd c ∧ sideOf sd = some side ∧
      t.tx = s.tx ++ frame c side s.operand) := by
  cases h with
  | sent ao sd c side hi hs hl hp => exact .inr ⟨rfl, ao, sd, c, side, hi, hs, rfl⟩
  | same | begin | ended | emptied | stored => exact .inl rfl

/-- While the wait goes on, or one has just begun, the result latches stay. -/
theorem Effect.resultsSame (h : Effect i s t) (hw : t.waiting ≠ none) : ResultsSame s t := by
  cases h with
  | same | begin | stored => exact ⟨rfl, rfl, rfl, rfl, rfl, rfl, rfl, fun _ => rfl⟩
  | ended | emptied | sent => exact absurd rfl hw

end

/-! ## The invariant, operation by operation -/

section
variable {s t : State}

/-- The invariant is about table and history only. -/
theorem engineInv_of_eq (h : EngineInv s) (hmem : t.mem = s.mem) (htx : t.tx = s.tx) : EngineInv t where
  table := hmem ▸ h.table
  payloads c b hb := h.payloads c b (by rwa [State.tabRead, hmem] at hb)
  frames := htx ▸ h.frames

theorem engineInv_finish (h : EngineInv s) (st : Status) (r : Results) : EngineInv (s.finish st r) :=
  engineInv_of_eq h rfl rfl

/-- Writing an entry keeps the invariant, if the payload it buffers is within its store. -/
theorem engineInv_tabWrite (h : EngineInv s) (c : Byte) (e : Entry)
    (he : ∀ b, e.buf = some b → b.data.length ≤ Config.payloadMax) : EngineInv (s.tabWrite c e) where
  table := s.wf_tabWrite h.table c e
  payloads d b hb := by
    by_cases hd : d = c
    · subst hd
      rw [s.tabRead_tabWrite_eq h.table] at hb
      exact he b hb
    · rw [s.tabRead_tabWrite_ne c d e hd] at hb
      exact h.payloads d b hb
  frames := h.frames

/-- Idle and Sent entries buffer nothing, so writing one keeps the invariant. -/
theorem engineInv_tabWrite_noPayload (h : EngineInv s) (c : Byte) (pending : Option Side) :
    EngineInv (s.tabWrite c ⟨pending, none⟩) :=
  engineInv_tabWrite h c _ nofun

/-- Appending one more frame keeps `TX` a sequence of whole frames. -/
theorem engineInv_txWrite (h : EngineInv s) (c : Byte) (side : Side) (payload : List Byte)
    (hl : payload.length ≤ Config.payloadMax) : EngineInv (s.txWrite (frame c side payload)) where
  table := h.table
  payloads := h.payloads
  frames := by
    obtain ⟨sent, hle, htx⟩ := h.frames
    refine ⟨sent ++ [(c, side, payload)], fun f hf => ?_, by simp [htx]⟩
    obtain hf | rfl := List.mem_append.mp hf |>.imp_right List.mem_singleton.mp
    · exact hle f hf
    · exact hl

theorem engineInv_reset : EngineInv State.reset where
  table := ⟨List.Pairwise.nil, nofun⟩
  payloads := nofun
  frames := ⟨[], nofun, rfl⟩

/-- Every effect of an instruction keeps the invariant. -/
theorem Effect.engineInv {i : Instr} (hE : Effect i s t) (h : EngineInv s) : EngineInv t := by
  cases hE with
  | same => exact h
  | begin => exact engineInv_of_eq h rfl rfl
  | ended st r => exact engineInv_finish h st r
  | emptied c st r => exact engineInv_finish (engineInv_tabWrite_noPayload h c none) st r
  | sent ao sd c side hi hs hl hp =>
    exact engineInv_finish (engineInv_tabWrite_noPayload (engineInv_txWrite h c side _ hl) c (some side)) _ _
  | stored body f w hi hw hf =>
    refine engineInv_tabWrite h f.cmd _ fun b hb => ?_
    cases hb
    exact parseData_le hf

/-- A step of any kind, a reset among them, keeps the invariant. -/
theorem step_engineInv (h : EngineInv s) (hstep : step s = .next t) : EngineInv t := by
  cases hr : s.rst with
  | true =>
    obtain rfl := step_of_reset hr hstep
    exact engineInv_of_eq engineInv_reset rfl rfl
  | false =>
    obtain ⟨rfl, -⟩ | ⟨-, -, hE⟩ | ⟨-, k, hE⟩ := step_without_reset hr hstep
    · exact h
    · exact hE.engineInv (engineInv_of_eq h rfl rfl)
    · exact hE.engineInv (engineInv_of_eq h rfl rfl)

end

/-- Settles O40, from what each effect of an instruction keeps. -/
theorem stepKeepsInvariant : Obligations.StepKeepsInvariant :=
  fun _ _ h hstep => step_engineInv h hstep

/-- Settles O9: the invariant holds at reset, and R27's values by the definition of the reset state. -/
theorem resetStateHolds : Obligations.ResetStateHolds :=
  ⟨fun _ => rfl, rfl, rfl, rfl, rfl, engineInv_reset⟩

/-! ## Streams, operand latches, result latches -/

/-- Settles O6, by what the step finds to take up. -/
theorem stepIdleOrBlocked : Obligations.StepIdleOrBlocked := by
  intro s hr hidle
  obtain ⟨h1, -⟩ | ⟨-, -, -, h⟩ | ⟨-, hw, hs, -⟩ | ⟨-, w, hw, hev⟩ := step_of_fetch s
  · simp [hr] at h1
  · exact h
  · simp [hw, hs] at hidle
  · obtain ⟨-, h⟩ | ⟨rest, hx, -⟩ | ⟨bytes, rest, hx, -⟩ := hev
    · exact h
    · simp [hw, hx] at hidle
    · simp [hw, hx] at hidle

/-- Settles O44: of a command's effects only SEND's writes `TX`, and a line is never a SEND. -/
theorem txGrowsBySendOnly : Obligations.TxGrowsBySendOnly := by
  intro s t hr hstep
  obtain ⟨rfl, -⟩ | ⟨hw, hs, hE⟩ | ⟨-, k, hE⟩ := step_without_reset hr hstep
  · exact .inl rfl
  · exact hE.tx_cases.imp_right fun ⟨hok, hsent⟩ => ⟨hw, hs, hok, hsent⟩
  · obtain htx | ⟨-, ao, sd, c, side, hi, -⟩ := hE.tx_cases
    · exact .inl htx
    · exact absurd hi (toInstr_ne_send k ao sd c)

/-- Settles O45: only the step of a wait takes an event, and no instruction takes another. -/
theorem eventsConsumedInWaitOnly : Obligations.EventsConsumedInWaitOnly := by
  intro s t hstep
  cases hr : s.rst with
  | true =>
    obtain rfl := step_of_reset hr hstep
    exact ⟨fun _ => rfl, nofun⟩
  | false =>
    obtain ⟨rfl, hidle⟩ | ⟨hw, -, hE⟩ | ⟨hw, k, hE⟩ := step_without_reset hr hstep
    · refine ⟨fun _ => rfl, fun _ hw => ?_⟩
      obtain ⟨hn, -⟩ | ⟨-, hx⟩ := hidle
      · exact absurd hn hw
      · rw [hx, List.tail_nil]
    · exact ⟨fun _ => hE.rx_eq, fun _ h => absurd hw h⟩
    · exact ⟨fun h => absurd h (by simp [hw]), fun _ _ => hE.rx_eq⟩

/-- Settles O47, from the frame of every effect. -/
theorem operandLatchesKept : Obligations.OperandLatchesKept := by
  intro s t hr hstep
  obtain ⟨rfl, -⟩ | ⟨-, -, hE⟩ | ⟨-, k, hE⟩ := step_without_reset hr hstep
  · exact ⟨rfl, rfl, rfl⟩
  · exact ⟨hE.portSame.cw, hE.portSame.opLen, hE.portSame.opBuf⟩
  · exact ⟨hE.portSame.cw, hE.portSame.opLen, hE.portSame.opBuf⟩

/-- The result latches are the same fields in a state that differs in its inputs only. -/
theorem resultsSame_of_inputs {s t : State} {rx : List Event} {start : Bool}
    (h : ResultsSame { s with rx := rx, start := start } t) : ResultsSame s t :=
  ⟨h.status, h.hasPayload, h.resKind, h.resCmd, h.resSide, h.resCk, h.resLen, h.resByte⟩

/-- Settles O46: an effect that writes a result latch ends the wait. -/
theorem resultsHeldUntilEnd : Obligations.ResultsHeldUntilEnd := by
  intro s t hr hstep hheld
  obtain ⟨rfl, -⟩ | ⟨-, hs, hE⟩ | ⟨hw, k, hE⟩ := step_without_reset hr hstep
  · exact ⟨rfl, rfl, rfl, rfl, rfl, rfl, rfl, fun _ => rfl⟩
  · exact resultsSame_of_inputs (hE.resultsSame (by simpa [hs] using hheld))
  · exact resultsSame_of_inputs (hE.resultsSame (by simpa [hw] using hheld))

/-! ## The bounds of `OP_LEN`, `OP_BUF`, `RES_LEN` and `RES_BUF` -/

/-- `lenWidth` is the least width that holds `LINE_MAX`. -/
theorem lenWidth_bounds : Config.lineMax + 1 ≤ 2 ^ Config.lenWidth ∧ 2 ^ (Config.lenWidth - 1) < Config.lineMax + 1 := by
  have hne : Config.lineMax ≠ 0 := Nat.ne_of_gt (Nat.lt_of_lt_of_le (by decide) lineMax_ge)
  exact ⟨Nat.lt_log2_self, Nat.lt_succ_of_le (Nat.log2_self_le hne)⟩

/-- Within the `n` bytes taken, `takeD` reads as the list does, with the default after its end. -/
theorem getElem?_takeD {α : Type} (d : α) : ∀ (n : Nat) (l : List α) (i : Nat), i < n → (l.takeD n d)[i]? = some (l.getD i d)
  | n, [], i, h => by simp [h]
  | n + 1, a :: l, 0, _ => by simp
  | n + 1, a :: l, i + 1, h => by simpa using getElem?_takeD d n l i (by omega)

/-- Settles O54, from the laws of the operand and of writes to `OP_BUF`. -/
theorem operandWithinBuffer : Obligations.OperandWithinBuffer := by
  refine ⟨lenWidth_bounds, fun s => ⟨Nat.le_of_lt_succ s.opLen.isLt, operand_length s, fun i hi => ?_⟩,
    fun s w operand => ⟨rfl, operand_issue s w operand, rfl, fun i hi => ?_⟩⟩
  · exact getElem?_takeD 0 _ _ _ hi
  · exact OpBuf.byte_write_ge s.opBuf operand i hi

/-! ## A byte sequence in the result latches -/

/-- The first bytes of a delivered sequence are held whole, if `RES_BUF` has a place for them. -/
theorem heldWhole_front {front back : List Byte} {t : State} (h : BytesDelivered (front ++ back) t)
    (hl : front.length ≤ Config.lineMax) : HeldWhole front t := by
  intro i hi
  have hlt : i < (front ++ back).length := by rw [List.length_append]; omega
  refine ⟨by omega, ?_⟩
  rw [h.byte ⟨i, by omega⟩ hlt, List.getElem_append_left hi]

/-- ENCODE with good operands, and SEND of an id that is not pending, deliver the frame (41_encode.md R100, R104). -/
theorem exec_delivers_frame {ao : Bool} {sd : BitVec 2} {c : Byte} {s : State} {side : Side} {i : Instr}
    (hs : sideOf sd = some side) (hl : s.operand.length ≤ 255)
    (hi : i = .encode ao sd c ∨ i = .send ao sd c ∧ (s.tabRead c).pending = none) :
    ∃ t, exec i s = .next t ∧ BytesDelivered (frame c side s.operand) t := by
  have hops := encodeOperands?_eq_some.mpr ⟨hs, hl⟩
  obtain rfl | ⟨rfl, hp⟩ := hi
  · exact ⟨_, by simp only [exec, execEncode, hops]; rfl, bytesDelivered_finish _ _ _ _ rfl (frame_length_le c side _ hl)⟩
  · exact ⟨_, by simp only [exec, execSend, hops, hp]; rfl, bytesDelivered_finish _ _ _ _ rfl (frame_length_le c side _ hl)⟩

/-- Settles O56: a delivered sequence is held as far as `RES_BUF` reaches, and the frame's length tells how far that is. -/
theorem resultLatchesHoldResults : Obligations.ResultLatchesHoldResults := by
  have hmax := lineMax_ge
  refine ⟨lenWidth_bounds, fun s => ⟨s.resLen.isLt, s.resBuf.fits⟩,
    fun payload t hl hd => heldWhole_of_delivered hd (by omega), ?_⟩
  intro ao sd c s side i hs hl hi
  obtain ⟨t, ht, hd⟩ := exec_delivers_frame hs hl hi
  have hframe := frame_length c side s.operand hl
  have hline := frameLine_length c side s.operand hl
  refine ⟨t, ht, hd.length, heldWhole_front hd ?_, fun hroom => heldWhole_of_delivered hd ?_⟩
  · split at hline <;> omega
  · split at hframe <;> omega

end Sys2Proof.Machine

/-! PROOF. The statements of 20_memory.md: a wait never reads the operand latches. -/

namespace Sys2Proof.Machine

/-! ## The state with other operand latches -/

/-- The state after the host has changed the operand latches (10_state.md R18). -/
def State.withLatches (s : State) (cw : CommandWord) (n : OpLen) (buf : OpBuf) : State :=
  { s with cw := cw, opLen := n, opBuf := buf }

section
variable (s : State) (cw : CommandWord) (n : OpLen) (buf : OpBuf)

@[simp] theorem State.withLatches_waiting : (s.withLatches cw n buf).waiting = s.waiting := rfl
@[simp] theorem State.withLatches_tabRead (c : Byte) : (s.withLatches cw n buf).tabRead c = s.tabRead c := rfl

end

/-! ## What a step of a wait is, by the next receive event -/

section
variable {s : State} {w : Waiting} {rest : List Event}

theorem step_of_blocked (hr : s.rst = false) (hw : s.waiting = some w) (hx : s.rx = []) : step s = .next s :=
  stepIdleOrBlocked s hr (.inr ⟨by simp [hw], hx⟩)

theorem step_of_timeout (hr : s.rst = false) (hw : s.waiting = some w) (hx : s.rx = .timeout :: rest) :
    step s = .next (State.evict { s with rx := rest } w.cmd .responseTimeout) := by
  simpa [hr, hw, hx] using step_of_fetch s

theorem step_of_line {bytes : List Byte} (hr : s.rst = false) (hw : s.waiting = some w)
    (hx : s.rx = .line bytes :: rest) : step s = exec (decode (.line bytes)) { s with rx := rest } := by
  simpa [hr, hw, hx] using step_of_fetch s

end

/-! ## A wait and changed latches -/

/-- In a wait no line's meaning reads the operand latches: changing them before or after it makes no difference. -/
theorem exec_line_withLatches {s : State} {w : Waiting} (hw : s.waiting = some w) (k : LineKind)
    (cw : CommandWord) (n : OpLen) (buf : OpBuf) :
    ∃ t, exec k.toInstr s = .next t ∧ exec k.toInstr (s.withLatches cw n buf) = .next (t.withLatches cw n buf) := by
  cases k with
  | nack rest =>
    simp only [LineKind.toInstr, exec, execNack, State.withLatches_waiting, hw]
    exact ⟨_, rfl, rfl⟩
  | ack rest =>
    simp only [LineKind.toInstr, exec, execAck, State.withLatches_waiting, State.withLatches_tabRead, hw]
    cases (s.tabRead w.cmd).buf with
    | none => cases w.ackOnly <;> exact ⟨_, rfl, rfl⟩
    | some b =>
      by_cases hside : b.side = w.side
      · simp only [if_pos hside]
        exact ⟨_, rfl, rfl⟩
      · simp only [if_neg hside]
        exact ⟨_, rfl, rfl⟩
  | data body =>
    simp only [LineKind.toInstr, exec, execData, State.withLatches_waiting, hw]
    cases parseData body <;> exact ⟨_, rfl, rfl⟩
  | malformed line =>
    simp only [LineKind.toInstr, exec, execMalformed, State.withLatches_waiting, hw]
    exact ⟨_, rfl, rfl⟩

/-- A step of a wait from changed operand latches is the step from the former ones, with the latches as they were changed. -/
theorem step_withLatches {s : State} {w : Waiting} (hr : s.rst = false) (hw : s.waiting = some w)
    (cw : CommandWord) (n : OpLen) (buf : OpBuf) :
    ∃ t, step s = .next t ∧ step (s.withLatches cw n buf) = .next (t.withLatches cw n buf) := by
  have hr' : (s.withLatches cw n buf).rst = false := hr
  have hw' : (s.withLatches cw n buf).waiting = some w := hw
  cases hx : s.rx with
  | nil => exact ⟨_, step_of_blocked hr hw hx, step_of_blocked hr' hw' hx⟩
  | cons ev rest =>
    cases ev with
    | timeout => exact ⟨_, step_of_timeout hr hw hx, step_of_timeout hr' hw' hx⟩
    | line bytes =>
      obtain ⟨t, ht, ht'⟩ := exec_line_withLatches (s := { s with rx := rest }) hw (classify bytes) cw n buf
      exact ⟨t, (step_of_line hr hw hx).trans ht, (step_of_line hr' hw' hx).trans ht'⟩

/-- Settles O48, from the steps of a wait: none of its receive events leads to a meaning that reads an operand latch. -/
theorem latchesSampledAtBegin : Obligations.LatchesSampledAtBegin := by
  intro s cw n buf hr hne
  obtain ⟨w, hw⟩ := Option.ne_none_iff_exists'.mp hne
  exact step_withLatches hr hw cw n buf

end Sys2Proof.Machine

/-! PROOF. The statements of 30_encoding.md: codes and instructions, the hex helpers, the canonical frame, the reserved
command words, and one whole transaction. -/

namespace Sys2Proof.Machine

open Sys2Proof.Safety

/-! ## Codes and instructions -/

/-- Settles O2, row by row: a command word by its layout, a line by the classification. -/
theorem decodeOfEncode : Obligations.DecodeOfEncode := by
  intro i
  cases i with
  | checksum ao sd c => exact Laws.RoundTrip.checksum ao sd c
  | encode ao sd c => exact Laws.RoundTrip.encode ao sd c
  | send ao sd c => exact Laws.RoundTrip.send ao sd c
  | decode ao sd c => exact Laws.RoundTrip.decode ao sd c
  | await ao sd c => exact Laws.RoundTrip.await ao sd c
  | fetch ao sd c => exact Laws.RoundTrip.fetch ao sd c
  | reservedOp6 ao sd c => exact Laws.RoundTrip.reservedOp6 ao sd c
  | reservedOp7 ao sd c => exact Laws.RoundTrip.reservedOp7 ao sd c
  | reservedBit8 op ao sd b9 c => exact Laws.RoundTrip.reservedBit8 op ao sd b9 c
  | reservedBit9 op ao sd c => exact Laws.RoundTrip.reservedBit9 op ao sd c
  | nack rest => exact Laws.RoundTrip.nack rest
  | ack rest => exact Laws.RoundTrip.ack rest
  | data body => exact Laws.RoundTrip.data body
  | malformed line => exact Laws.RoundTrip.malformed line

theorem operationCode_cases (op : BitVec 3) :
    op = 0 ∨ op = 1 ∨ op = 2 ∨ op = 3 ∨ op = 4 ∨ op = 5 ∨ op = 6 ∨ op = 7 := by
  revert op; decide

/-- The row of an operation code is well formed and encodes to the word of that code. -/
theorem commandRow_encode (op : BitVec 3) (ao : Bool) (sd : BitVec 2) (c : Byte) :
    wellFormed (commandRow op ao sd c) = true ∧
    encode (commandRow op ao sd c) = .commandWord (packCommand op ao sd false false c) := by
  obtain rfl | rfl | rfl | rfl | rfl | rfl | rfl | rfl := operationCode_cases op <;> exact ⟨rfl, rfl⟩

/-- The row of a command word is well formed and encodes to the word: its fields are packed again. -/
theorem decodeCommand_encode (w : CommandWord) :
    wellFormed (decodeCommand w) = true ∧ encode (decodeCommand w) = .commandWord w := by
  have hw := packCommand_fields w
  cases h8 : cwBit8 w with
  | true =>
    rw [h8] at hw
    simp [decodeCommand, h8, wellFormed, encode, hw]
  | false =>
    cases h9 : cwBit9 w with
    | true =>
      rw [h8, h9] at hw
      simp [decodeCommand, h8, h9, wellFormed, encode, hw]
    | false =>
      rw [h8, h9] at hw
      simpa [decodeCommand, h8, h9, hw] using commandRow_encode (cwOp w) (cwAckOnly w) (cwSide w) (cwCmd w)

/-- The row of a line is well formed and encodes to the line: each kind keeps the bytes that do not decide it. -/
theorem decodeLine_encode (l : List Byte) : wellFormed (decodeLine l) = true ∧ encode (decodeLine l) = .line l := by
  unfold decodeLine
  cases hov : overlong l with
  | true => simp [classify_of_overlong hov, LineKind.toInstr, wellFormed, encode, hov]
  | false =>
    cases l with
    | nil => exact ⟨rfl, rfl⟩
    | cons h body =>
      by_cases hh : h = Config.headMarker
      · subst hh
        by_cases hN : body.head? = some Config.kindNack
        · obtain ⟨rest, rfl⟩ := List.head?_eq_some_iff.mp hN
          simp [classify_nack hov, LineKind.toInstr, wellFormed, encode, hov]
        · by_cases hA : body.head? = some Config.kindAck
          · obtain ⟨rest, rfl⟩ := List.head?_eq_some_iff.mp hA
            simp [classify_ack hov, LineKind.toInstr, wellFormed, encode, hov]
          · simp [classify_data hov hN hA, LineKind.toInstr, wellFormed, encode, hov, hN, hA]
      · simp [classify_of_head hh, LineKind.toInstr, wellFormed, encode, hh]

/-- Settles O3, for each of the two forms of a code. -/
theorem encodeOfDecode : Obligations.EncodeOfDecode
  | .commandWord w => decodeCommand_encode w
  | .line l => decodeLine_encode l

/-- Settles O1 by running the decoder on each of the eighteen codes. -/
theorem writtenOutCodesDecode : Obligations.WrittenOutCodesDecode := by
  unfold Obligations.WrittenOutCodesDecode
  decide

/-! ## The hex helpers (30_encoding.md R64) -/

theorem isHex_iff (ch : Byte) : isHex ch = true ↔
    (0x30 ≤ ch.toNat ∧ ch.toNat ≤ 0x39) ∨ (0x41 ≤ ch.toNat ∧ ch.toNat ≤ 0x46) ∨ (0x61 ≤ ch.toNat ∧ ch.toNat ≤ 0x66) := by
  simp [isHex, BitVec.le_def, or_assoc]

/-- `hexVal` on each of its three ranges. -/
theorem hexVal_of_range (ch : Byte) :
    (0x30 ≤ ch.toNat ∧ ch.toNat ≤ 0x39 → hexVal ch = ch.toNat - 0x30) ∧
    (0x41 ≤ ch.toNat ∧ ch.toNat ≤ 0x46 → hexVal ch = ch.toNat - 0x41 + 10) ∧
    (0x61 ≤ ch.toNat ∧ ch.toNat ≤ 0x66 → hexVal ch = ch.toNat - 0x61 + 10) := by
  simp only [hexVal, BitVec.le_def, BitVec.reduceToNat]
  refine ⟨fun h => ?_, fun h => ?_, fun h => ?_⟩
  · rw [if_pos h.2]
  · rw [if_neg (by omega), if_pos h.2]
  · rw [if_neg (by omega), if_neg (by omega)]

/-- A digit after a sequence of digits is its least significant. -/
theorem hexNum_append (digits : List Byte) (ch : Byte) : hexNum (digits ++ [ch]) = 16 * hexNum digits + hexVal ch :=
  List.foldl_append

theorem hexN_digits : ∀ v : Byte, (v.toNat ≤ 15 → hexN v = [digit v.toNat]) ∧
    (16 ≤ v.toNat → hexN v = [digit (v.toNat / 16), digit (v.toNat % 16)]) := by decide +kernel

theorem hexNum_written : ∀ v : Byte, hexNum (hex2 v) = v.toNat ∧ hexNum (hexN v) = v.toNat := by decide +kernel

/-- Settles O27, from the laws of each helper. -/
theorem hexRoundTrip : Obligations.HexRoundTrip :=
  ⟨isHex_iff, hexVal_of_range, rfl, hexNum_append, fun n => (hexDig_facts n).2.2.2, hex2_digit, hexN_digits,
    fun v => ⟨(hexNum_written v).1, (hexNum_written v).2, hexByte?_hex2 v⟩⟩

/-! ## The canonical frame (30_encoding.md R52) -/

/-- What follows a list's first `n` elements, read from index `n` on. -/
theorem getElem?_append_add {α : Type} {a : List α} {n : Nat} (h : a.length = n) (b : List α) (k : Nat) :
    (a ++ b)[n + k]? = b[k]? := by
  rw [List.getElem?_append_right (by omega)]
  congr 1
  omega

theorem sideChar_eq_sideText (side : Side) : sideChar side = sideText side := by
  cases side <;> rfl

/-- The checksum region of a frame is as long as 30_encoding.md R52 says. -/
theorem frameRegion_length {p : List Byte} {d : Nat} (hd : (hexN (BitVec.ofNat 8 p.length)).length = d) (cmd : Byte)
    (side : Side) : (frameRegion cmd side p).length = 7 + d + 3 * p.length := by
  simp only [frameRegion, hex2, List.length_cons, List.length_append, List.length_nil, payloadTokens_length, hd]
  omega

/-- A frame in the order of its fields: `#`, CMD, SIDE, then LEN, the payload tokens, the checksum, the delimiter. -/
theorem frame_eq_fields (cmd : Byte) (side : Side) (p : List Byte) :
    frame cmd side p =
      [0x23, digit (cmd.toNat / 16), digit (cmd.toNat % 16), 0x2C, sideText side, 0x2C] ++
        (hexN (BitVec.ofNat 8 p.length) ++ (payloadTokens p ++
          [0x2C, digit ((checksum (frameRegion cmd side p)).toNat / 16),
            digit ((checksum (frameRegion cmd side p)).toNat % 16), 0x00])) := by
  unfold frame frameLine
  generalize checksum (frameRegion cmd side p) = ck
  simp [frameRegion, hex2_digit, sideChar_eq_sideText]

theorem payloadTokens_append (a b : List Byte) : payloadTokens (a ++ b) = payloadTokens a ++ payloadTokens b := by
  simp [payloadTokens_eq]

/-- The token of payload byte `i`, with the tokens before and after it. -/
theorem payloadTokens_at {p : List Byte} {i : Nat} (h : i < p.length) :
    payloadTokens p = payloadTokens (p.take i) ++
      ([0x2C, digit (p[i].toNat / 16), digit (p[i].toNat % 16)] ++ payloadTokens (p.drop (i + 1))) := by
  have hp : p.take i ++ p[i] :: p.drop (i + 1) = p := by simp
  conv_lhs => rw [← hp, payloadTokens_append, payloadTokens, hex2_digit]
  rfl

section
variable {p : List Byte} {d : Nat} (hd : (hexN (BitVec.ofNat 8 p.length)).length = d) (cmd : Byte) (side : Side)
include hd

/-- A frame at its LEN field. -/
theorem getElem?_frame_len {k : Nat} (hk : k < d) :
    (frame cmd side p)[6 + k]? = (hexN (BitVec.ofNat 8 p.length))[k]? := by
  rw [frame_eq_fields, getElem?_append_add (n := 6) rfl, List.getElem?_append_left (hd ▸ hk)]

/-- A frame after its LEN field. -/
theorem getElem?_frame_afterLen (k : Nat) :
    (frame cmd side p)[6 + d + k]? =
      (payloadTokens p ++ [0x2C, digit ((checksum (frameRegion cmd side p)).toNat / 16),
        digit ((checksum (frameRegion cmd side p)).toNat % 16), 0x00])[k]? := by
  rw [frame_eq_fields, Nat.add_assoc, getElem?_append_add (n := 6) rfl, getElem?_append_add hd]

/-- A frame from its last comma on. -/
theorem getElem?_frame_afterTokens (k : Nat) :
    (frame cmd side p)[6 + d + 3 * p.length + k]? =
      [0x2C, digit ((checksum (frameRegion cmd side p)).toNat / 16),
        digit ((checksum (frameRegion cmd side p)).toNat % 16), 0x00][k]? := by
  rw [Nat.add_assoc, getElem?_frame_afterLen hd, getElem?_append_add (payloadTokens_length p)]

/-- A frame from the token of payload byte `i` on. -/
theorem getElem?_frame_token {i : Nat} (h : i < p.length) {k : Nat} (hk : k < 3) :
    (frame cmd side p)[6 + d + 3 * i + k]? = [0x2C, digit (p[i].toNat / 16), digit (p[i].toNat % 16)][k]? := by
  have hlen : (payloadTokens (p.take i)).length = 3 * i := by
    rw [payloadTokens_length, List.length_take_of_le (Nat.le_of_lt h)]
  rw [Nat.add_assoc, getElem?_frame_afterLen hd, payloadTokens_at h, List.append_assoc, getElem?_append_add hlen,
    List.append_assoc, List.getElem?_append_left hk]

/-- The bytes before the checksum field are the checksum region. -/
theorem take_frame_region : (frame cmd side p).take (7 + d + 3 * p.length) = frameRegion cmd side p := by
  rw [frame, frameLine, List.append_assoc]
  exact List.take_left' (frameRegion_length hd cmd side)

end

/-- The digits of a LEN field (30_encoding.md R55). -/
theorem hexN_ofNat {n : Nat} (h : n ≤ 255) : (n ≤ 15 → hexN (BitVec.ofNat 8 n) = [digit n]) ∧
    (16 ≤ n → hexN (BitVec.ofNat 8 n) = [digit (n / 16), digit (n % 16)]) := by
  have hn : (BitVec.ofNat 8 n).toNat = n := Nat.mod_eq_of_lt (Nat.lt_succ_of_le h)
  simpa only [hn] using hexN_digits (BitVec.ofNat 8 n)

/-- The fields of fixed offset: `#`, CMD and SIDE with the commas after them. -/
theorem getElem?_frame_fixed (cmd : Byte) (side : Side) (p : List Byte) {k : Nat} (hk : k < 6) :
    (frame cmd side p)[k]? =
      [0x23, digit (cmd.toNat / 16), digit (cmd.toNat % 16), 0x2C, sideText side, 0x2C][k]? := by
  rw [frame_eq_fields, List.getElem?_append_left hk]

/-- Settles O16: each field at its offset, the fixed ones first, then LEN, the payload tokens, and the end of the frame. -/
theorem frameLayout : Obligations.FrameLayout := by
  intro cmd side payload hl F L d
  have hd : (hexN (BitVec.ofNat 8 payload.length)).length = d := (hexN_facts _ hl).1
  have hfixed (k : Nat) (hk : k < 6) := getElem?_frame_fixed cmd side payload hk
  have htail := getElem?_frame_afterTokens hd cmd side
  have h7 : 7 + d + 3 * L = 6 + d + 3 * L + 1 := by omega
  have h8 : 8 + d + 3 * L = 6 + d + 3 * L + 2 := by omega
  have h9 : 9 + d + 3 * L = 6 + d + 3 * L + 3 := by omega
  refine ⟨frame_length cmd side payload hl, hfixed 0 (by decide), hfixed 1 (by decide), hfixed 2 (by decide),
    hfixed 3 (by decide), hfixed 4 (by decide), hfixed 5 (by decide), fun h => ?_, fun h => ?_, fun i h => ?_, htail 0, ?_⟩
  · have hlen := getElem?_frame_len hd cmd side (k := 0) (by simp [d, h])
    rwa [(hexN_ofNat hl).1 h] at hlen
  · have hlen (k : Nat) (hk : k < 2) := getElem?_frame_len hd cmd side (k := k) (by simp only [d]; split <;> omega)
    rw [(hexN_ofNat hl).2 h] at hlen
    exact ⟨hlen 0 (by decide), hlen 1 (by decide)⟩
  · have htoken (k : Nat) (hk : k < 3) := getElem?_frame_token hd cmd side h hk
    exact ⟨htoken 0 (by decide), htoken 1 (by decide), htoken 2 (by decide)⟩
  · rw [take_frame_region hd, h7, h8, h9]
    exact ⟨htail 1, htail 2, htail 3⟩

/-! ## Canonical text (30_encoding.md R59) -/

/-- The bytes a line of a canonical frame may hold. -/
def IsFrameText (b : Byte) : Prop := b = 0x23 ∨ b = 0x2C ∨ b ∈ hexDigits

theorem isFrameText_separator : IsFrameText Config.separator := .inr (.inl rfl)

theorem isFrameText_hexDig (n : BitVec 4) : IsFrameText (hexDig n) := .inr (.inr (hexDig_facts n).2.2.1)

theorem isFrameText_sideChar (side : Side) : IsFrameText (sideChar side) := by
  cases side <;> exact .inr (.inr (by decide))

theorem isFrameText_hex2 (v : Byte) : ∀ b ∈ hex2 v, IsFrameText b := by
  simp [hex2, isFrameText_hexDig]

theorem isFrameText_hexN (v : Byte) : ∀ b ∈ hexN v, IsFrameText b := by
  unfold hexN
  split
  · simp [isFrameText_hexDig]
  · exact isFrameText_hex2 v

theorem isFrameText_payloadTokens (p : List Byte) : ∀ b ∈ payloadTokens p, IsFrameText b := by
  induction p with
  | nil => nofun
  | cons v rest ih =>
    rw [payloadTokens, List.forall_mem_cons, List.forall_mem_append]
    exact ⟨isFrameText_separator, isFrameText_hex2 v, ih⟩

theorem isFrameText_frameLine (cmd : Byte) (side : Side) (p : List Byte) : ∀ b ∈ frameLine cmd side p, IsFrameText b := by
  simp only [frameLine, frameRegion, List.forall_mem_append, List.forall_mem_cons]
  exact ⟨⟨.inl rfl, isFrameText_hex2 cmd, isFrameText_separator, isFrameText_sideChar side, isFrameText_separator,
    isFrameText_hexN _, isFrameText_payloadTokens p, isFrameText_separator, nofun⟩, isFrameText_hex2 _⟩

/-- Settles O17, field by field. -/
theorem frameTextCanonical : Obligations.FrameTextCanonical :=
  fun cmd side p => ⟨rfl, isFrameText_frameLine cmd side p⟩

/-! ## A started command -/

/-- Settles O4, from what a step finds to take up. -/
theorem stepRunsStartedCommand : Obligations.StepRunsStartedCommand := by
  intro s hr hw hs
  simpa [hr, hw, hs] using step_of_fetch s

/-- Settles O39: none of these meanings names the fields. -/
theorem unreadFieldsIgnored : Obligations.UnreadFieldsIgnored :=
  fun _ _ _ _ _ _ _ => ⟨rfl, rfl, rfl, rfl, rfl⟩

/-! ## Reserved command words (30_encoding.md R68) -/

/-- The answer to a reserved word ends the operation with `IllegalOp` and writes nothing but result latches. -/
theorem illegal_answer (s : State) : Ended .illegalOp s.illegal ∧ OnlyResults s s.illegal :=
  ⟨⟨rfl, rfl⟩, onlyResults_finish s _ _⟩

/-- Settles O37: each reserved row has the one answer. -/
theorem reservedRowsAnswerIllegalOp : Obligations.ReservedRowsAnswerIllegalOp :=
  fun _ _ _ _ _ s => ⟨⟨_, rfl, illegal_answer s⟩, ⟨_, rfl, illegal_answer s⟩, ⟨_, rfl, illegal_answer s⟩,
    ⟨_, rfl, illegal_answer s⟩⟩

theorem cwOp_toNat (w : CommandWord) : (cwOp w).toNat = w.toNat / 2 ^ 13 := by
  have := w.isLt
  simp only [cwOp, BitVec.extractLsb'_toNat, Nat.shiftRight_eq_div_pow]
  omega

/-- A word is reserved by its operation code or by one of its two reserved bits. -/
theorem reservedWord_iff (w : CommandWord) :
    ReservedWord w ↔ 6 ≤ (cwOp w).toNat ∨ cwBit9 w = true ∨ cwBit8 w = true := by
  have := (cwOp w).isLt
  unfold ReservedWord
  rw [← cwOp_toNat, ← or_assoc, show (cwOp w).toNat = 6 ∨ (cwOp w).toNat = 7 ↔ 6 ≤ (cwOp w).toNat by omega]
  rfl

theorem reservedCode_cases {op : BitVec 3} (h : 6 ≤ op.toNat) : op = 6 ∨ op = 7 := by
  revert op; decide

/-- A reserved word has the one answer, whichever of its rows it decodes to. -/
theorem exec_of_reservedWord {w : CommandWord} (h : ReservedWord w) (s : State) :
    exec (decodeCommand w) s = .next s.illegal := by
  unfold decodeCommand
  split
  · rfl
  · split
    · rfl
    · rename_i h8 h9
      have hop : 6 ≤ (cwOp w).toNat := by simpa [h8, h9] using (reservedWord_iff w).mp h
      obtain hc | hc := reservedCode_cases hop <;> rw [hc] <;> rfl

/-- No operation of the codes 0 to 5 writes `IllegalOp` to `STATUS`. -/
theorem exec_commandRow_status {op : BitVec 3} (hop : op.toNat < 6) (ao : Bool) (sd : BitVec 2) (c : Byte) {s : State}
    (hs : s.status ≠ .illegalOp) : ∃ t, exec (commandRow op ao sd c) s = .next t ∧ t.status ≠ .illegalOp := by
  obtain rfl | rfl | rfl | rfl | rfl | rfl | rfl | rfl := operationCode_cases op
  · exact ⟨_, rfl, nofun⟩
  · show ∃ t, execEncode ao sd c s = _ ∧ _
    unfold execEncode
    split <;> exact ⟨_, rfl, nofun⟩
  · show ∃ t, execSend ao sd c s = _ ∧ _
    unfold execSend
    split
    · exact ⟨_, rfl, nofun⟩
    · split <;> exact ⟨_, rfl, nofun⟩
  · show ∃ t, execDecode ao sd c s = _ ∧ _
    unfold execDecode
    split
    · exact ⟨_, rfl, nofun⟩
    · exact ⟨_, rfl, nofun⟩
    · exact ⟨_, rfl, nofun⟩
    · rename_i e he
      obtain rfl | rfl := decodeFrame_error he <;> exact ⟨_, rfl, nofun⟩
  · show ∃ t, execAwait ao sd c s = _ ∧ _
    unfold execAwait
    split
    · exact ⟨_, rfl, nofun⟩
    · exact ⟨_, rfl, hs⟩
  · show ∃ t, execFetch ao sd c s = _ ∧ _
    unfold execFetch
    split <;> exact ⟨_, rfl, nofun⟩
  · exact absurd hop (by decide)
  · exact absurd hop (by decide)

/-- A word that is not reserved decodes to the row of its operation code, 0 to 5. -/
theorem decodeCommand_of_not_reservedWord {w : CommandWord} (h : ¬ ReservedWord w) :
    (cwOp w).toNat < 6 ∧ decodeCommand w = commandRow (cwOp w) (cwAckOnly w) (cwSide w) (cwCmd w) := by
  rw [reservedWord_iff] at h
  obtain ⟨hop, h9, h8⟩ : ¬ 6 ≤ (cwOp w).toNat ∧ ¬ cwBit9 w = true ∧ ¬ cwBit8 w = true := by simpa only [not_or] using h
  exact ⟨Nat.lt_of_not_le hop, by rw [decodeCommand, if_neg h8, if_neg h9]⟩

/-- Settles O38: the step runs what `CW` decodes to, a reserved row or the row of an operation. -/
theorem reservedWordsOnly : Obligations.ReservedWordsOnly := by
  intro s hr hw hs
  rw [stepRunsStartedCommand s hr hw hs]
  constructor
  · intro hres
    obtain ⟨hended, hsame⟩ := illegal_answer { s with start := false }
    exact ⟨_, exec_of_reservedWord hres _, hended, hsame.table, hsame.tx, hsame.rx, hsame.port.cw⟩
  · intro hres hst
    obtain ⟨hop, hrow⟩ := decodeCommand_of_not_reservedWord hres
    rw [decode, hrow]
    exact exec_commandRow_status hop _ _ _ hst

/-! ## The line of a canonical frame, decoded (42_decode.md R137) -/

/-- The fields of a frame before its checksum, as a receiver splits them. -/
def frameFields (cmd : Byte) (side : Side) (p : List Byte) : List (List Byte) :=
  hex2 cmd :: [sideChar side] :: hexN (BitVec.ofNat 8 p.length) :: p.map hex2

/-- The checksum region is `#`, the fields joined by commas, and a comma. -/
theorem frameRegion_eq_join (cmd : Byte) (side : Side) (p : List Byte) :
    frameRegion cmd side p = Config.headMarker :: (join (frameFields cmd side p) ++ [Config.separator]) := by
  simp [frameRegion, frameFields, join, payloadTokens_eq]

theorem frameLine_eq_join (cmd : Byte) (side : Side) (p : List Byte) :
    frameLine cmd side p = Config.headMarker ::
      (join (frameFields cmd side p) ++ Config.separator :: hex2 (checksum (frameRegion cmd side p))) := by
  rw [frameLine]
  generalize checksum (frameRegion cmd side p) = ck
  simp [frameRegion_eq_join]

theorem split_frameFields (cmd : Byte) (side : Side) (p : List Byte) :
    split (join (frameFields cmd side p)) = frameFields cmd side p := by
  refine split_join _ _ fun f hf => ?_
  simp only [List.mem_cons, List.mem_map] at hf
  obtain rfl | rfl | rfl | ⟨v, -, rfl⟩ := hf
  · exact hex2_no_separator cmd
  · exact sideChar_no_separator side
  · exact hexN_no_separator _
  · exact hex2_no_separator v

/-- The parser reads the fields of an encoded frame as the triple that was encoded. -/
theorem parseFields_frameFields (cmd : Byte) (side : Side) {p : List Byte} (hl : p.length ≤ 255) (ck : List Byte) (k : Byte) :
    parseFields (frameFields cmd side p ++ [ck]) k = some ⟨cmd, side, p, k⟩ :=
  parseFields_eq_some.mpr ⟨_, _, _, _, rfl, hexByte?_hex2 cmd, sideField?_eq_some.mpr rfl,
    by rw [List.length_map]; exact (hexN_facts _ hl).2, payloadFields?_map_hex2 p, rfl⟩

/-- The body of an encoded frame passes every check of a Data line. -/
theorem parseData_frame (cmd : Byte) (side : Side) {p : List Byte} (hl : p.length ≤ 255) :
    parseData (join (frameFields cmd side p) ++ Config.separator :: hex2 (checksum (frameRegion cmd side p))) =
      .ok ⟨cmd, side, p, checksum (frameRegion cmd side p)⟩ := by
  simp only [parseData_eq _ _ (hex2_no_separator _), hexByte?_hex2, ← frameRegion_eq_join, split_frameFields,
    parseFields_frameFields cmd side hl]
  simp

/-- No frame's first digit is `N`, and it is `A` for the ids 0xA0 to 0xAF only (90_conflicts.md C3). -/
theorem hex2_head : ∀ v : Byte, (hex2 v).head? ≠ some Config.kindNack ∧
    ((hex2 v).head? = some Config.kindAck ↔ 0xA0 ≤ v.toNat ∧ v.toNat ≤ 0xAF) := by decide +kernel

/-- The line of an encoded frame decodes to the triple that was encoded, unless its id's first digit makes it an Ack. -/
theorem decodeFrame_frameLine {cmd : Byte} (hA : ¬ (0xA0 ≤ cmd.toNat ∧ cmd.toNat ≤ 0xAF)) (side : Side) {p : List Byte}
    (hl : p.length ≤ 255) :
    decodeFrame (frameLine cmd side p) = .data ⟨cmd, side, p, checksum (frameRegion cmd side p)⟩ := by
  have hlen : (frameLine cmd side p).length ≤ Config.lineMax := by
    have := lineMax_ge
    rw [frameLine_length cmd side p hl]
    split <;> omega
  obtain ⟨hN, hAck⟩ := hex2_head cmd
  exact decodeFrame_eq_data.mpr ⟨_, frameLine_eq_join cmd side p, hlen, hN, mt hAck.mp hA, parseData_frame cmd side hl⟩

/-! ## One transaction (30_encoding.md R70) -/

/-- The state an issued operation runs in: its operands in the latches, the start taken (log 2). -/
def State.takeUp (s : State) (w : CommandWord) (operand : OpBuf) : State := { s.issue w operand with start := false }

@[simp] theorem State.takeUp_operand (s : State) (w : CommandWord) (operand : OpBuf) :
    (s.takeUp w operand).operand = operand.bytes := operand_issue s w operand

/-- With nothing in progress, an issued operation runs in the next step. -/
theorem step_issue {s : State} (hr : s.rst = false) (hw : s.waiting = none) (w : CommandWord) (operand : OpBuf) :
    step (s.issue w operand) = exec (decodeCommand w) (s.takeUp w operand) :=
  stepRunsStartedCommand _ hr hw rfl

/-- What SEND does when it succeeds: the frame on `TX`, the record opened, the frame in the result latches (41_encode.md
R104, R106). -/
def State.sent (s : State) (c : Byte) (side : Side) (payload : List Byte) : State :=
  ((s.txWrite (frame c side payload)).tabWrite c ⟨some side, none⟩).complete { bytes := some (frame c side payload) }

/-- SEND with good operands of an id that is not pending succeeds. -/
theorem exec_send_of_not_pending {sd : BitVec 2} {c : Byte} {s : State} {side : Side} (hs : sideOf sd = some side)
    (hl : s.operand.length ≤ 255) (hp : (s.tabRead c).pending = none) (ao : Bool) :
    exec (.send ao sd c) s = .next (s.sent c side s.operand) := by
  simp only [exec, execSend, encodeOperands?_eq_some.mpr ⟨hs, hl⟩, hp]
  rfl

/-- An issued SEND of an id that is not pending succeeds in one step. -/
theorem step_issue_send {s : State} {c : Byte} {command : OpBuf} (hr : s.rst = false) (hw : s.waiting = none)
    (hp : (s.tabRead c).pending = none) (hl : command.bytes.length ≤ 255) (side : Side) (ao : Bool) :
    let w := packCommand 2 ao (sideCode side) false false c
    step (s.issue w command) = .next ((s.takeUp w command).sent c side command.bytes) := by
  intro w
  rw [step_issue hr hw, decodeCommand_packCommand]
  have hexec := exec_send_of_not_pending (s := s.takeUp w command) (sideOf_sideCode side) (by simpa using hl) hp ao
  rwa [State.takeUp_operand] at hexec

/-- An issued AWAIT begins its wait in one step. -/
theorem step_issue_await {s : State} (hr : s.rst = false) (hw : s.waiting = none) (c : Byte) (side : Side) (ao : Bool)
    (operand : OpBuf) :
    let w := packCommand 4 ao (sideCode side) false false c
    step (s.issue w operand) = .next { s.takeUp w operand with waiting := some ⟨c, side, ao⟩ } := by
  intro w
  rw [step_issue hr hw, decodeCommand_packCommand]
  show execAwait ao (sideCode side) c _ = _
  rw [execAwait, sideOf_sideCode]

theorem exec_data_store {s : State} {w : Waiting} {body : List Byte} {f : Frame} (hw : s.waiting = some w)
    (hp : parseData body = .ok f) : exec (.data body) s = .next (s.store f) := by
  simp only [exec, execData, hw, hp]

theorem exec_ack_release {s : State} {w : Waiting} {b : Buffered} (hw : s.waiting = some w)
    (hb : (s.tabRead w.cmd).buf = some b) (hside : b.side = w.side) (tail : List Byte) :
    exec (.ack tail) s = .next (s.release w.cmd b) := by
  simp only [exec, execAck, hw, hb, if_pos hside]

section
variable {s : State} {w : Waiting} {rest : List Event} (hr : s.rst = false) (hw : s.waiting = some w)
include hr hw

/-- A line that decodes to a Data frame is stored, whatever is awaited (43_correlator.md R160). -/
theorem step_of_data_line {bytes : List Byte} {f : Frame} (hx : s.rx = .line bytes :: rest)
    (hf : decodeFrame bytes = .data f) : step s = .next (State.store { s with rx := rest } f) := by
  obtain ⟨body, rfl, hl, hN, hA, hp⟩ := decodeFrame_eq_data.mp hf
  rw [step_of_line hr hw hx, decode, decodeLine, classify_data (overlong_eq_false hl) hN hA]
  exact exec_data_store hw hp

/-- An Ack line releases what is buffered for the awaited id, if its side is the expected one (43_correlator.md R156). -/
theorem step_of_ack_line {tail : List Byte} {b : Buffered}
    (hx : s.rx = .line (Config.headMarker :: Config.kindAck :: tail) :: rest) (hl : tail.length + 2 ≤ Config.lineMax)
    (hb : (s.tabRead w.cmd).buf = some b) (hside : b.side = w.side) :
    step s = .next (State.release { s with rx := rest } w.cmd b) := by
  rw [step_of_line hr hw hx, decode, decodeLine, classify_ack (overlong_eq_false hl)]
  exact exec_ack_release (s := { s with rx := rest }) hw hb hside tail

end

theorem run_succ_of_step {s t : State} (h : step s = .next t) (k : Nat) :
    Host.Core.run core (k + 1) s = Host.Core.run core k t := by
  have hcore : core.step s = .next t := h
  simp only [Host.Core.run, hcore]

/-- A wait for an id, with a Data frame of that id from the expected side and then an Ack next in `RX`, releases the
frame's payload in two steps. -/
theorem run_data_then_ack {s : State} {bytes tail : List Byte} {f : Frame} {ao : Bool} {rest : List Event}
    (hm : s.mem.wf) (hr : s.rst = false) (hw : s.waiting = some ⟨f.cmd, f.side, ao⟩)
    (hx : s.rx = .line bytes :: .line (Config.headMarker :: Config.kindAck :: tail) :: rest)
    (hf : decodeFrame bytes = .data f) (hl : tail.length + 2 ≤ Config.lineMax) :
    Host.Core.run core 2 s =
      .next (State.release (State.store { s with rx := rest } f) f.cmd ⟨f.side, f.payload⟩) := by
  have hstore := step_of_data_line hr hw hx hf
  set s1 : State := State.store { s with rx := .line (Config.headMarker :: Config.kindAck :: tail) :: rest } f
  have hbuf : s1.tabRead f.cmd = ⟨_, some ⟨f.side, f.payload⟩⟩ := State.tabRead_tabWrite_eq _ hm _ _
  have hrelease : step s1 = _ :=
    step_of_ack_line (s := s1) (w := ⟨f.cmd, f.side, ao⟩) hr hw rfl hl (congrArg Entry.buf hbuf) rfl
  rw [run_succ_of_step hstore, run_succ_of_step hrelease]
  rfl

/-- Settles O51: SEND is one step; AWAIT begins in one step, stores the answer in the next and releases it in the third. -/
theorem transactionDeliversPayload : Obligations.TransactionDeliversPayload := by
  intro s c side ao command answer tail rest hinv hr hw hp hA hcmd hans hl hx
  have hsend := step_issue_send hr hw hp hcmd side false
  set s1 := (s.takeUp (packCommand 2 false (sideCode side) false false c) command).sent c side command.bytes
  have hm1 : s1.mem.wf := State.wf_tabWrite _ hinv.table c _
  have hbegin := step_issue_await (s := s1) hr rfl c side ao OpBuf.empty
  set s2 : State := { s1.takeUp _ OpBuf.empty with waiting := some ⟨c, side, ao⟩ }
  have hrun := run_data_then_ack (s := s2) (f := ⟨c, side, answer, _⟩) hm1 hr rfl hx
    (decodeFrame_frameLine hA side hans) hl
  refine ⟨s1, _, hsend, rfl, rfl, (run_succ_of_step hbegin 2).trans hrun, ⟨rfl, rfl⟩, rfl, rfl,
    bytesDelivered_finish _ _ _ _ rfl (by omega), ?_, fun x hne => ?_, rfl, rfl⟩
  · exact State.tabRead_tabWrite_eq _ (State.wf_tabWrite _ hm1 c _) c _
  · exact (State.tabRead_tabWrite_ne _ c x _ hne).trans ((State.tabRead_tabWrite_ne _ c x _ hne).trans
      (State.tabRead_tabWrite_ne _ c x _ hne))

end Sys2Proof.Machine

/-! PROOF. The statements of 40_checksum.md: the linearity of the CRC, its table form, its reading as a polynomial remainder,
and the operation CHECKSUM. -/

namespace Sys2Proof.Machine

/-! ## Linearity (40_checksum.md R89) -/

/-- Two registers over two sequences of equal length: the exclusive-or of all inputs gives that of the results. -/
theorem foldl_crcStep_xor {a b : List Byte} (h : a.length = b.length) (r q : CrcWord) :
    (xorBytes a b).foldl crcStep (r ^^^ q) = a.foldl crcStep r ^^^ b.foldl crcStep q := by
  induction a generalizing b r q with
  | nil =>
    obtain rfl := List.length_eq_zero_iff.mp h.symm
    rfl
  | cons x xs ih =>
    cases b with
    | nil => cases h
    | cons y ys =>
      have hstep := ih (Nat.succ.inj h) (crcStep r x) (crcStep q y)
      rwa [← crcStep_xor] at hstep

theorem crc16_xorBytes {a b : List Byte} (h : a.length = b.length) : crc16 (xorBytes a b) = crc16 a ^^^ crc16 b :=
  foldl_crcStep_xor h 0 0

theorem checksum_xorBytes {a b : List Byte} (h : a.length = b.length) :
    checksum (xorBytes a b) = checksum a ^^^ checksum b := by
  simp only [checksum, crc16_xorBytes h, BitVec.setWidth_xor]

/-- Settles O12: the register of a sequence is linear, and the low byte of a register is. -/
theorem crcLinear : Obligations.CrcLinear :=
  fun _ _ h => ⟨crc16_xorBytes h, checksum_xorBytes h⟩

/-! ## A change of one byte (40_checksum.md R90) -/

/-- Leading zero bytes leave the register as it starts. -/
theorem crc16_zeros_append (n : Nat) (s : List Byte) : crc16 (List.replicate n 0x00 ++ s) = crc16 s := by
  have hzeros : (List.replicate n (0x00 : Byte)).foldl crcStep Config.crcInit = Config.crcInit := crc16_zeros n
  rw [crc16, List.foldl_append, hzeros, crc16]

theorem checksum_zeros_append (n : Nat) (s : List Byte) : checksum (List.replicate n 0x00 ++ s) = checksum s := by
  rw [checksum, crc16_zeros_append, checksum]

theorem xorBytes_zeros (s : List Byte) : xorBytes s (List.replicate s.length 0x00) = s := by
  induction s with
  | nil => rfl
  | cons b s ih =>
    rw [List.length_cons, List.replicate_succ, xorBytes, List.zipWith_cons_cons, ← xorBytes, ih]
    simp

/-- The change of one byte is the exclusive-or with a sequence of zeros but for that byte. -/
theorem xorBytes_oneByte (before after : List Byte) (b e : Byte) :
    xorBytes (before ++ b :: after)
        (List.replicate before.length 0x00 ++ e :: List.replicate after.length 0x00) =
      before ++ (b ^^^ e) :: after := by
  have hsplit : xorBytes (before ++ b :: after)
        (List.replicate before.length 0x00 ++ e :: List.replicate after.length 0x00) =
      xorBytes before (List.replicate before.length 0x00) ++
        (b ^^^ e) :: xorBytes after (List.replicate after.length 0x00) :=
    List.zipWith_append List.length_replicate.symm
  rw [hsplit, xorBytes_zeros, xorBytes_zeros]

/-- The checksum changes by the checksum of the change and the zero bytes after it. -/
theorem checksum_oneByte (before after : List Byte) (b e : Byte) :
    checksum (before ++ (b ^^^ e) :: after) =
      checksum (before ++ b :: after) ^^^ checksum (e :: List.replicate after.length 0x00) := by
  rw [← xorBytes_oneByte, checksum_xorBytes (by simp), checksum_zeros_append]

/-- Settles O13: by linearity the checksum changes by that of the change alone. -/
theorem undetectedByteChange : Obligations.UndetectedByteChange := by
  refine ⟨fun before after b e => ?_, by decide +kernel⟩
  rw [checksum_oneByte]
  exact xor_left_eq_self_iff

/-! ## The table form of a byte step (40_checksum.md R83) -/

/-- As long as no 1 leaves the register, shifts are plain left shifts. -/
theorem crcShifts_of_small (n : Nat) (r : CrcWord) (h : r.toNat * 2 ^ n < 2 ^ 16) : crcShifts n r = r <<< n := by
  induction n generalizing r with
  | zero => simp [crcShifts]
  | succ n ih =>
    have hpow : r.toNat * 2 ^ (n + 1) = (r.toNat * 2) * 2 ^ n := by ring
    have hr : r.toNat * 2 < 2 ^ 16 := (Nat.le_mul_of_pos_right _ (Nat.two_pow_pos n)).trans_lt (hpow ▸ h)
    have htop : r.getLsbD 15 = false := by
      rw [BitVec.getLsbD, Nat.testBit_eq_false_of_lt]
      omega
    have hshift : (r <<< 1).toNat = r.toNat * 2 := by
      rw [BitVec.toNat_shiftLeft, Nat.shiftLeft_eq, pow_one, Nat.mod_eq_of_lt hr]
    rw [crcShifts, crcShift, htop, if_neg Bool.false_ne_true, ih _ (by rwa [hshift, ← hpow]), Nat.add_comm n,
      BitVec.shiftLeft_add]

/-- A register is its low byte and its high byte. -/
theorem crcWord_eq_low_xor_high (r : CrcWord) :
    r = (r.setWidth 8).setWidth 16 ^^^ (((r >>> 8).setWidth 8).setWidth 16 <<< 8) := by
  refine BitVec.eq_of_getLsbD_eq fun i hi => ?_
  by_cases h : i < 8
  · simp [h, hi]
  · have hsum : 8 + (i - 8) = i := by omega
    have hsub : i - 8 < 8 := by omega
    simp [h, hi, hsum, hsub]

/-- A byte step of a register whose high byte is 0 on the byte 0 only moves the low byte up. -/
theorem crcStep_low_zero (x : Byte) : crcStep (x.setWidth 16) 0 = x.setWidth 16 <<< 8 := by
  have hx := x.isLt
  have hzero : x.setWidth 16 ^^^ ((0 : Byte).setWidth 16 <<< 8) = x.setWidth 16 := by simp
  rw [crcStep, hzero, crcShifts_of_small]
  rw [BitVec.toNat_setWidth]
  omega

/-- A byte in the high half of the register acts like a byte of the input. -/
theorem crcStep_high (x b : Byte) : crcStep (x.setWidth 16 <<< 8) b = crcStep 0 (x ^^^ b) := by
  rw [crcStep, crcStep, BitVec.setWidth_xor, BitVec.shiftLeft_xor_distrib]
  simp

theorem crcStep_table (r : CrcWord) (b : Byte) : crcStep r b = (r <<< 8) ^^^ crcStep 0 ((r >>> 8).setWidth 8 ^^^ b) := by
  have hlow : (r.setWidth 8).setWidth 16 <<< 8 = r <<< 8 := by
    refine BitVec.eq_of_toNat_eq ?_
    simp only [BitVec.toNat_shiftLeft, BitVec.toNat_setWidth, Nat.shiftLeft_eq]
    omega
  calc crcStep r b
      = crcStep ((r.setWidth 8).setWidth 16 ^^^ (((r >>> 8).setWidth 8).setWidth 16 <<< 8)) (0 ^^^ b) := by
        rw [← crcWord_eq_low_xor_high]
        simp
    _ = (r <<< 8) ^^^ crcStep 0 ((r >>> 8).setWidth 8 ^^^ b) := by
        rw [crcStep_xor, crcStep_low_zero, crcStep_high, hlow]

/-- Settles O14: the low byte of the register moves up, the high byte acts with the byte of the input. -/
theorem crcTableForm : Obligations.CrcTableForm :=
  ⟨crcStep_table, by decide⟩

/-! ## The polynomial remainder (40_checksum.md R83) -/

section
open Polynomial

/-- The generator of `CRC_POLY`, with its implicit `x^16`. -/
noncomputable def crcGenerator : (ZMod 2)[X] := X ^ 16 + X ^ 12 + X ^ 5 + 1

theorem crcGenerator_monic : crcGenerator.Monic := by
  unfold crcGenerator
  monicity!

theorem crcGenerator_degree : crcGenerator.degree = 16 := by
  unfold crcGenerator
  compute_degree!

theorem wordPoly_degree_lt (w : CrcWord) : (wordPoly w).degree < 16 := by
  refine (degree_sum_le _ _).trans_lt ((Finset.sup_lt_iff (by decide)).mpr fun i hi => ?_)
  have hi : i < 16 := Finset.mem_range.mp hi
  split
  · rw [degree_X_pow]
    exact_mod_cast hi
  · rw [degree_zero]
    decide

theorem wordPoly_xor (v w : CrcWord) : wordPoly (v ^^^ w) = wordPoly v + wordPoly w := by
  rw [wordPoly, wordPoly, wordPoly, ← Finset.sum_add_distrib]
  refine Finset.sum_congr rfl fun i _ => ?_
  rw [BitVec.getLsbD_xor]
  cases v.getLsbD i <;> cases w.getLsbD i <;> simp [CharTwo.add_self_eq_zero]

/-- A left shift multiplies by `x`; bit 15 is the coefficient that leaves. -/
theorem wordPoly_shiftLeft_one (w : CrcWord) :
    wordPoly (w <<< 1) + (if w.getLsbD 15 then X ^ 16 else 0) = X * wordPoly w := by
  have hbit : ∀ i ∈ Finset.range 15, (if (w <<< 1).getLsbD (i + 1) then (X : (ZMod 2)[X]) ^ (i + 1) else 0) =
      X * if w.getLsbD i then X ^ i else 0 := by
    intro i hi
    have hi : i < 15 := Finset.mem_range.mp hi
    rw [BitVec.getLsbD_shiftLeft]
    simp [show i + 1 < 16 by omega, pow_succ']
  rw [wordPoly, wordPoly, Finset.sum_range_succ', Finset.sum_congr rfl hbit, Finset.sum_range_succ _ 15, mul_add,
    Finset.mul_sum]
  simp [pow_succ']

theorem wordPoly_crcPoly : wordPoly Config.crcPoly + X ^ 16 = crcGenerator := by
  have hbits : (Finset.range 16).filter (fun i => Config.crcPoly.getLsbD i) = {0, 5, 12} := by decide
  have hsum : wordPoly Config.crcPoly = 1 + X ^ 5 + X ^ 12 := by
    rw [wordPoly, ← Finset.sum_filter, hbits]
    simp [add_assoc]
  rw [hsum, crcGenerator]
  ring

/-- A byte in the high half of a register is the byte's polynomial times `x^8`. -/
theorem wordPoly_high (b : Byte) : wordPoly (b.setWidth 16 <<< 8) = X ^ 8 * bytePoly b := by
  have hlow : ∀ i ∈ Finset.range 8, (if (b.setWidth 16 <<< 8).getLsbD i then (X : (ZMod 2)[X]) ^ i else 0) = 0 := by
    intro i hi
    simp [Finset.mem_range.mp hi]
  have hhigh : ∀ i ∈ Finset.range 8, (if (b.setWidth 16 <<< 8).getLsbD (8 + i) then (X : (ZMod 2)[X]) ^ (8 + i) else 0) =
      X ^ 8 * if b.getLsbD i then X ^ i else 0 := by
    intro i hi
    have hi : i < 8 := Finset.mem_range.mp hi
    simp [show 8 + i < 16 by omega, pow_add]
  rw [wordPoly, bytePoly, Finset.sum_range_add _ 8 8, Finset.sum_congr rfl hlow, Finset.sum_congr rfl hhigh,
    Finset.sum_const_zero, zero_add, Finset.mul_sum]

/-- The class of a register modulo the generator. -/
noncomputable def crcResidue (w : CrcWord) : AdjoinRoot crcGenerator := AdjoinRoot.mk crcGenerator (wordPoly w)

theorem crcResidue_xor (v w : CrcWord) : crcResidue (v ^^^ w) = crcResidue v + crcResidue w := by
  rw [crcResidue, wordPoly_xor, map_add, crcResidue, crcResidue]

/-- A shifted register differs from `x` times the register by the generator, if a bit leaves it. -/
theorem wordPoly_crcShift (w : CrcWord) :
    wordPoly (crcShift w) + (if w.getLsbD 15 then crcGenerator else 0) = X * wordPoly w := by
  rw [← wordPoly_shiftLeft_one, crcShift]
  split
  · rw [wordPoly_xor, ← wordPoly_crcPoly]
    linear_combination CharTwo.add_self_eq_zero (wordPoly Config.crcPoly)
  · rfl

/-- One shift multiplies by `x` modulo the generator. -/
theorem crcResidue_crcShift (w : CrcWord) : crcResidue (crcShift w) = AdjoinRoot.root crcGenerator * crcResidue w := by
  have hvanish : AdjoinRoot.mk crcGenerator (if w.getLsbD 15 then crcGenerator else 0) = 0 := by
    split
    · exact AdjoinRoot.mk_self
    · exact map_zero _
  have h := congrArg (AdjoinRoot.mk crcGenerator) (wordPoly_crcShift w)
  rwa [map_add, hvanish, add_zero, map_mul, AdjoinRoot.mk_X] at h

theorem crcResidue_crcShifts (n : Nat) (w : CrcWord) :
    crcResidue (crcShifts n w) = AdjoinRoot.root crcGenerator ^ n * crcResidue w := by
  induction n generalizing w with
  | zero => rw [crcShifts, pow_zero, one_mul]
  | succ n ih => rw [crcShifts, ih, crcResidue_crcShift, pow_succ, mul_assoc]

/-- A byte step adds the byte at `x^16` and multiplies the register by `x^8`. -/
theorem crcResidue_crcStep (w : CrcWord) (b : Byte) :
    crcResidue (crcStep w b) = AdjoinRoot.mk crcGenerator (wordPoly w * X ^ 8 + bytePoly b * X ^ 16) := by
  rw [crcStep, crcResidue_crcShifts, crcResidue_xor, crcResidue, crcResidue, wordPoly_high, ← AdjoinRoot.mk_X,
    ← map_pow, ← map_add, ← map_mul]
  congr 1
  ring

theorem bytesPoly_append_singleton (s : List Byte) (b : Byte) :
    bytesPoly (s ++ [b]) = bytesPoly s * X ^ 8 + bytePoly b :=
  List.foldl_append

theorem crc16_append_singleton (s : List Byte) (b : Byte) : crc16 (s ++ [b]) = crcStep (crc16 s) b :=
  List.foldl_append

/-- The register is congruent to the sequence's polynomial times `x^16`: each byte step keeps that. -/
theorem crcResidue_crc16 (s : List Byte) : crcResidue (crc16 s) = AdjoinRoot.mk crcGenerator (bytesPoly s * X ^ 16) := by
  induction s using List.reverseRecOn with
  | nil => simp [crcResidue, crc16, wordPoly, bytesPoly]
  | append_singleton s b ih =>
    rw [crcResidue] at ih
    rw [crc16_append_singleton, crcResidue_crcStep, bytesPoly_append_singleton, map_add, map_mul, ih, ← map_mul, ← map_add]
    congr 1
    ring

/-- A register's polynomial is a remainder by the generator, so it is that of every polynomial congruent to it. -/
theorem wordPoly_eq_modByMonic {w : CrcWord} {p : (ZMod 2)[X]} (h : crcResidue w = AdjoinRoot.mk crcGenerator p) :
    wordPoly w = p %ₘ crcGenerator := by
  have hdeg : (wordPoly w).degree < crcGenerator.degree := (wordPoly_degree_lt w).trans_eq crcGenerator_degree.symm
  obtain ⟨q, hq⟩ := AdjoinRoot.mk_eq_mk.mp h.symm
  refine (div_modByMonic_unique q (wordPoly w) crcGenerator_monic ⟨?_, hdeg⟩).2.symm
  rw [← hq]
  ring

/-- Settles O15: the register is congruent to `S(x) x^16` modulo the generator and of smaller degree. -/
theorem crcIsPolynomialRemainder : Obligations.CrcIsPolynomialRemainder :=
  fun s => wordPoly_eq_modByMonic (crcResidue_crc16 s)

end

/-! ## The operation CHECKSUM (40_checksum.md R86) -/

theorem operand_eq_nil {s : State} (h : s.opLen.val = 0) : s.operand = [] :=
  List.length_eq_zero_iff.mp ((operand_length s).trans h)

/-- Settles O10: the operation ends with the checksum of the operand in `RES_CK` and writes nothing but result latches. -/
theorem checksumCompletes : Obligations.ChecksumCompletes := by
  refine ⟨fun ao sd c s => ⟨_, rfl, ⟨rfl, rfl⟩, rfl, checksum_toNat _, onlyResults_finish s _ _, fun h => ?_,
    fun n rest h => ?_⟩, by decide +kernel⟩
  · exact congrArg checksum (operand_eq_nil h)
  · exact (congrArg checksum h).trans (checksum_zeros_append n rest)

/-- Settles O11 by running the register over the seven inputs. -/
theorem crcCheckValues : Obligations.CrcCheckValues := by
  unfold Obligations.CrcCheckValues
  decide +kernel

end Sys2Proof.Machine

/-! PROOF. The statements of 41_encode.md: what ENCODE and SEND do with good operands, with bad ones, and for an id that is
already pending. -/

namespace Sys2Proof.Machine

open Sys2Proof.Safety

/-! ## The end of an operation with an error -/

/-- An error ends the operation with its status and writes nothing but result latches (60_exceptions.md R200). -/
theorem raise_answer (s : State) (e : Status) : Ended e (s.raise e) ∧ OnlyResults s (s.raise e) :=
  ⟨⟨rfl, rfl⟩, onlyResults_finish s e {}⟩

/-! ## An entry that is not Idle reads back in every table -/

/-- Only a written Idle depends on the table's canonical form: any other entry stands before what its id was listed with. -/
theorem Memory.read_write_of_ne_idle (m : Memory) (c : Nat) {e : Entry} (he : e ≠ Entry.idle) : (m.write c e).read c = e := by
  induction m with
  | nil => simp [Memory.write, Memory.read, he]
  | cons x rest ih =>
    obtain ⟨k, x⟩ := x
    simp only [Memory.write, if_neg he]
    split
    · exact if_pos rfl
    · split
      · exact if_pos rfl
      · rename_i hck
        exact (if_neg hck).trans ih

theorem State.tabRead_tabWrite_of_ne_idle (s : State) (c : Byte) {e : Entry} (he : e ≠ Entry.idle) :
    (s.tabWrite c e).tabRead c = e :=
  Memory.read_write_of_ne_idle _ _ he

/-! ## ENCODE and SEND by their operands -/

section
variable {sd : BitVec 2} {s : State}

/-- ENCODE with good operands succeeds. -/
theorem exec_encode_of_good {side : Side} (hs : sideOf sd = some side) (hl : s.operand.length ≤ 255) (ao : Bool) (c : Byte) :
    exec (.encode ao sd c) s = .next (s.complete { bytes := some (frame c side s.operand) }) := by
  simp only [exec, execEncode, encodeOperands?_eq_some.mpr ⟨hs, hl⟩]

/-- ENCODE and SEND refuse the same operands with the same answer, before anything is written. -/
theorem exec_encode_send_of_bad (h : sd = 3 ∨ 255 < s.operand.length) (ao : Bool) (c : Byte) :
    exec (.encode ao sd c) s = .next (s.raise .encodingError) ∧ exec (.send ao sd c) s = .next (s.raise .encodingError) := by
  simp only [exec, execEncode, execSend, encodeOperands?_eq_none.mpr h, and_self]

/-- SEND with good operands of an id that is pending is refused. -/
theorem exec_send_of_pending {c : Byte} {side : Side} (hs : sideOf sd = some side) (hl : s.operand.length ≤ 255)
    (hp : (s.tabRead c).pending ≠ none) (ao : Bool) : exec (.send ao sd c) s = .next (s.raise .busy) := by
  simp only [exec, execSend, encodeOperands?_eq_some.mpr ⟨hs, hl⟩, Option.isSome_iff_ne_none.mpr hp, if_true]

end

/-! ## The statements -/

/-- Settles O18: ENCODE ends with the frame, no longer than 777 bytes, in the result latches. -/
theorem encodeCompletes : Obligations.EncodeCompletes := by
  intro ao sd c s side hs hl
  exact ⟨_, exec_encode_of_good hs hl ao c, ⟨rfl, rfl⟩,
    bytesDelivered_finish s _ _ _ rfl (frame_length_le c side s.operand hl), onlyResults_finish s _ _⟩

/-- Settles O19: the operand checks fail, and raising the error writes result latches only. -/
theorem badOperandsRefused : Obligations.BadOperandsRefused := by
  intro ao sd c s h
  obtain ⟨hencode, hsend⟩ := exec_encode_send_of_bad h ao c
  exact ⟨⟨_, hencode, raise_answer s _⟩, ⟨_, hsend, raise_answer s _⟩⟩

/-- Settles O20: the written entry is not Idle, so it reads back whatever form the table has. -/
theorem sendCompletes : Obligations.SendCompletes := by
  intro ao sd c s side hs hl hp
  have hentry : (s.sent c side s.operand).tabRead c = ⟨some side, none⟩ :=
    State.tabRead_tabWrite_of_ne_idle (s.txWrite _) c nofun
  have hothers : TableSameBut c s (s.sent c side s.operand) :=
    fun x hx => State.tabRead_tabWrite_ne (s.txWrite _) c x _ hx
  exact ⟨_, exec_send_of_not_pending hs hl hp ao, ⟨rfl, rfl⟩, rfl, hentry, hothers, rfl, ⟨rfl, rfl, rfl, rfl, rfl⟩,
    bytesDelivered_finish _ _ _ _ rfl (frame_length_le c side s.operand hl)⟩

/-- Settles O21: SEND finds the entry pending before it writes anything. -/
theorem sendWhilePendingIsBusy : Obligations.SendWhilePendingIsBusy := by
  intro ao sd c s side hs hl hp
  exact ⟨_, exec_send_of_pending hs hl hp ao, raise_answer s _⟩

end Sys2Proof.Machine

/-! PROOF. The statements of 42_decode.md: the kinds of a received line, the order of the checks of a Data line, the grammar
the decoder accepts, and the operation DECODE. -/

namespace Sys2Proof.Machine

open Sys2Proof.Safety

/-! ## A line by its first characters (42_decode.md R121 to R124, R136) -/

theorem decodeFrame_of_overlong {line : List Byte} (h : Config.lineMax < line.length) :
    decodeFrame line = .error .malformedFrame :=
  congrArg received (classify_of_overlong ((overlong_iff line).mpr h))

theorem decodeFrame_of_head {h : Byte} (hh : h ≠ Config.headMarker) (t : List Byte) :
    decodeFrame (h :: t) = .error .malformedFrame :=
  congrArg received (classify_of_head hh t)

theorem decodeFrame_nack {rest : List Byte} (hl : rest.length + 2 ≤ Config.lineMax) :
    decodeFrame (Config.headMarker :: Config.kindNack :: rest) = .nack :=
  congrArg received (classify_nack (overlong_eq_false hl))

theorem decodeFrame_ack {rest : List Byte} (hl : rest.length + 2 ≤ Config.lineMax) :
    decodeFrame (Config.headMarker :: Config.kindAck :: rest) = .ack :=
  congrArg received (classify_ack (overlong_eq_false hl))

/-- Settles O22, one classification law for each kind of line. -/
theorem lineKinds : Obligations.LineKinds :=
  ⟨congrArg received classify_nil, fun _ t hh => decodeFrame_of_head hh t, fun _ => decodeFrame_nack, fun _ => decodeFrame_ack⟩

/-- The longest canonical line has 776 bytes. -/
theorem frameLine_length_le (cmd : Byte) (side : Side) {p : List Byte} (hl : p.length ≤ 255) :
    (frameLine cmd side p).length ≤ 776 := by
  rw [frameLine_length cmd side p hl]
  split <;> omega

/-- Settles O23: `LINE_MAX` is at least the length of the longest canonical line. -/
theorem overlongLineMalformed : Obligations.OverlongLineMalformed :=
  ⟨fun _ => decodeFrame_of_overlong, fun cmd side _ hl =>
    ⟨frameLine_length_le cmd side hl, (frameLine_length_le cmd side hl).trans lineMax_ge⟩⟩

/-! ## An encoded frame (42_decode.md R137 item 1) -/

/-- The frame of an id whose first digit is `A` begins as an Ack does (90_conflicts.md C3). -/
theorem decodeFrame_frameLine_ack {cmd : Byte} (hA : 0xA0 ≤ cmd.toNat ∧ cmd.toNat ≤ 0xAF) (side : Side) {p : List Byte}
    (hl : p.length ≤ 255) : decodeFrame (frameLine cmd side p) = .ack := by
  obtain ⟨digits, hdigits⟩ := List.head?_eq_some_iff.mp ((hex2_head cmd).2.mpr hA)
  obtain ⟨rest, hrest⟩ : ∃ rest, frameLine cmd side p = Config.headMarker :: Config.kindAck :: rest :=
    ⟨_, by rw [frameLine, frameRegion, hdigits]; rfl⟩
  have hlen := (frameLine_length_le cmd side hl).trans lineMax_ge
  rw [hrest] at hlen ⊢
  exact decodeFrame_ack hlen

/-- Settles O26: without its delimiter a frame is its line, an Ack or a Data frame by the first digit of its id. -/
theorem decodeOfEncodedFrame : Obligations.DecodeOfEncodedFrame := by
  intro cmd side p hl
  rw [frame, List.dropLast_concat]
  split
  case isTrue hA => exact decodeFrame_frameLine_ack hA side hl
  case isFalse hA => exact decodeFrame_frameLine hA side hl

/-! ## The order of the checks of a Data line (42_decode.md R125 to R133) -/

section
variable {body before ck : List Byte} {k : Byte}

theorem digits_no_separator {a b : Byte} (ha : isHex a = true) (hb : isHex b = true) : Config.separator ∉ [a, b] := by
  simp [(isHex_ne_separator a ha).symm, (isHex_ne_separator b hb).symm]

/-- With no checksum field of two digits the body is malformed. -/
theorem parseData_of_bad_checksumField (hck : Config.separator ∉ ck) (h : hexByte? ck = none) :
    parseData (before ++ Config.separator :: ck) = .error .malformedFrame := by
  rw [parseData_eq before ck hck, h]

/-- With a checksum that differs the fields do not matter. -/
theorem parseData_of_wrong_checksum (hck : Config.separator ∉ ck) (h : hexByte? ck = some k)
    (hk : checksum (Config.headMarker :: (before ++ [Config.separator])) ≠ k) :
    parseData (before ++ Config.separator :: ck) = .error .checksumError := by
  simp only [parseData_eq before ck hck, h, if_pos hk]

/-- With the right checksum the field checks decide. -/
theorem parseData_of_right_checksum (hck : Config.separator ∉ ck) (h : hexByte? ck = some k)
    (hk : checksum (Config.headMarker :: (before ++ [Config.separator])) = k) :
    parseData (before ++ Config.separator :: ck) =
      (parseFields (split before ++ [ck]) k).elim (.error .malformedFrame) .ok := by
  simp only [parseData_eq before ck hck, h, hk, ne_eq, not_true_eq_false, if_false]
  cases parseFields (split before ++ [ck]) k <;> rfl

/-- A body passes every check exactly when it has a comma, a checksum field of the right value after its last one, and
fields that pass theirs. -/
theorem parseData_eq_ok {f : Frame} : parseData body = .ok f ↔
    ∃ before ck, body = before ++ Config.separator :: ck ∧ Config.separator ∉ ck ∧ hexByte? ck = some f.checksum ∧
      checksum (Config.headMarker :: (before ++ [Config.separator])) = f.checksum ∧
      parseFields (split before ++ [ck]) f.checksum = some f := by
  constructor
  · intro h
    by_cases hcomma : Config.separator ∈ body
    · obtain ⟨before, ck, rfl, hck⟩ := exists_last_comma hcomma
      cases hk : hexByte? ck with
      | none => rw [parseData_of_bad_checksumField hck hk] at h; cases h
      | some k =>
        by_cases hsum : checksum (Config.headMarker :: (before ++ [Config.separator])) = k
        · rw [parseData_of_right_checksum hck hk hsum] at h
          cases hf : parseFields (split before ++ [ck]) k with
          | none => rw [hf] at h; cases h
          | some g =>
            rw [hf] at h
            cases h
            obtain ⟨-, -, -, -, -, -, -, -, -, rfl⟩ := parseFields_eq_some.mp hf
            exact ⟨before, ck, rfl, hck, hk, hsum, hf⟩
        · rw [parseData_of_wrong_checksum hck hk hsum] at h; cases h
    · rw [parseData_of_no_comma body hcomma] at h; cases h
  · rintro ⟨before, ck, rfl, hck, hk, hsum, hf⟩
    rw [parseData_of_right_checksum hck hk hsum, hf]
    rfl

/-- The line of a Data body within `LINE_MAX` decodes to what the parser answers. -/
theorem decodeFrame_data_line (hl : body.length + 1 ≤ Config.lineMax) (hN : body.head? ≠ some Config.kindNack)
    (hA : body.head? ≠ some Config.kindAck) : decodeFrame (Config.headMarker :: body) = received (.data body) :=
  congrArg received (classify_data (overlong_eq_false hl) hN hA)

theorem received_of_error {e : Status} (h : parseData body = .error e) : received (.data body) = .error e := by
  simp only [received, h]

/-- With two checksum digits of the right value a body is a Data frame or malformed, by its fields. -/
theorem received_of_right_checksum {a b : Byte} (ha : isHex a = true) (hb : isHex b = true)
    (hsum : (checksum (Config.headMarker :: (before ++ [Config.separator]))).toNat = 16 * hexVal a + hexVal b) :
    received (.data (before ++ Config.separator :: [a, b])) =
      (parseFields (split before ++ [[a, b]]) (checksum (Config.headMarker :: (before ++ [Config.separator])))).elim
        (.error .malformedFrame) .data := by
  have hk := hexByte?_eq_some.mpr ⟨a, b, rfl, ha, hb, hsum⟩
  simp only [received, parseData_of_right_checksum (digits_no_separator ha hb) hk rfl]
  cases parseFields (split before ++ [[a, b]]) _ <;> rfl

end

/-- Settles O24: the parser looks for the last comma, then the checksum digits, then the checksum, then the fields. -/
theorem checksumBeforeFields : Obligations.ChecksumBeforeFields := by
  intro body hl hN hA
  rw [show decodeFrame (0x23 :: body) = received (.data body) from decodeFrame_data_line hl hN hA]
  refine ⟨fun hcomma => received_of_error (parseData_of_no_comma body hcomma), ?_⟩
  rintro before ck rfl hck
  refine ⟨fun hbad => ?_, ?_, ?_⟩
  · exact received_of_error (parseData_of_bad_checksumField hck (hexByte?_eq_none.mpr hbad))
  · rintro a b rfl ha hb hsum
    obtain ⟨k, hk⟩ := exists_hexByte?.mpr (⟨rfl, by simp [ha, hb]⟩ : TwoDigits [a, b])
    refine received_of_error (parseData_of_wrong_checksum hck hk ?_)
    rintro rfl
    obtain ⟨_, _, heq, -, -, hval⟩ := hexByte?_eq_some.mp hk
    cases heq
    exact hsum hval
  · rintro a b rfl ha hb hsum
    rw [show received (.data (before ++ 0x2C :: [a, b])) = _ from received_of_right_checksum ha hb hsum]
    cases parseFields (split before ++ [[a, b]]) _ with
    | none => exact .inr rfl
    | some f => exact .inl ⟨f, rfl⟩

/-! ## The field checks (42_decode.md R129 to R132) -/

theorem parseFields_of_few {fs : List (List Byte)} (h : fs.length < 3) (ck : List Byte) (k : Byte) :
    ¬ ∃ f, parseFields (fs ++ [ck]) k = some f := by
  rintro ⟨f, hf⟩
  obtain ⟨cmd, side, len, payload, rfl, -⟩ := parseFields_eq_some.mp hf
  simp only [List.length_cons] at h
  omega

/-- Some frame is read exactly when each of the fields is good and their number is right. -/
theorem exists_parseFields {cmd side len : List Byte} {payload : List (List Byte)} {ck : List Byte} {k : Byte} :
    (∃ f, parseFields (cmd :: side :: len :: payload ++ [ck]) k = some f) ↔
      TwoDigits cmd ∧ side ∈ [[0x30], [0x31], [0x32]] ∧ lenField? len = some payload.length ∧
        ∀ f ∈ payload, TwoDigits f := by
  rw [← exists_hexByte?, ← exists_payloadFields?]
  constructor
  · rintro ⟨f, hf⟩
    obtain ⟨_, _, _, _, ⟨⟩, hcmd, hside, hlen, hpayload, -⟩ := parseFields_eq_some.mp hf
    exact ⟨⟨_, hcmd⟩, exists_sideField?.mp ⟨_, hside⟩, hlen, _, hpayload⟩
  · rintro ⟨⟨c, hcmd⟩, hside, hlen, p, hpayload⟩
    obtain ⟨sd, hside⟩ := exists_sideField?.mpr hside
    exact ⟨⟨c, sd, p, k⟩, parseFields_eq_some.mpr ⟨_, _, _, _, rfl, hcmd, hside, hlen, hpayload, rfl⟩⟩

/-- The ways in which a LEN field fails to be read as a given number (R130, R131). -/
theorem lenField?_ne_some {field : List Byte} {n : Nat} : ¬ lenField? field = some n ↔
    field = [] ∨ (∃ ch ∈ field, isHex ch = false) ∨ 255 < hexNum field ∨ n ≠ hexNum field := by
  rw [lenField?_eq_some]
  by_cases hn : hexNum field = n
  · simp [hn, imp_iff_not_or]
  · simp [hn, Ne.symm hn]

/-- The outcome of the field checks is the error exactly when they read no frame. -/
theorem elim_eq_malformed {r : Option Frame} :
    r.elim (.error .malformedFrame) .data = Received.error .malformedFrame ↔ ¬ ∃ f, r = some f := by
  cases r <;> simp

/-- Settles O55: the line is its joined fields and the checksum digits; once the checksum is right, the line is malformed exactly when one of the field checks fails. -/
theorem fieldFailuresMalformed : Obligations.FieldFailuresMalformed := by
  intro fields a b region hne hcomma ha hb hl hN hA hsum
  obtain ⟨f, fs, rfl⟩ := List.exists_cons_of_ne_nil hne
  have hregion : region = Config.headMarker :: (join (f :: fs) ++ [Config.separator]) :=
    congrArg (Config.headMarker :: ·) (flatMap_separator f fs)
  clear_value region
  subst hregion
  have hline : Config.headMarker :: (join (f :: fs) ++ [Config.separator]) ++ [a, b]
      = Config.headMarker :: (join (f :: fs) ++ Config.separator :: [a, b]) := by simp
  have hhead : (join (f :: fs) ++ Config.separator :: [a, b]).head?
      = (Config.headMarker :: (join (f :: fs) ++ [Config.separator]))[1]? := by
    cases join (f :: fs) <;> rfl
  have hlen : (join (f :: fs) ++ Config.separator :: [a, b]).length + 1 ≤ Config.lineMax := by
    simpa [Nat.add_assoc] using hl
  have hdecode := decodeFrame_data_line hlen (hhead ▸ hN) (hhead ▸ hA)
  rw [received_of_right_checksum ha hb hsum, split_join f fs hcomma] at hdecode
  rw [hline, hdecode, elim_eq_malformed]
  refine ⟨fun hfew => parseFields_of_few hfew _ _, ?_⟩
  rintro cmd side len payload heq
  rw [heq, exists_parseFields]
  simp only [not_and_or, lenField?_ne_some, not_forall, exists_prop, or_assoc]

/-! ## The grammar of Data lines (42_decode.md R137 item 3) -/

/-- The fields of a Data line before its checksum, from the parts of the grammar. -/
def grammarFields (c1 c2 side : Byte) (len : List Byte) (tokens : List (Byte × Byte)) : List (List Byte) :=
  [c1, c2] :: [side] :: len :: tokens.map (fun p => [p.1, p.2])

theorem lineRegion_eq_join (c1 c2 side : Byte) (len : List Byte) (tokens : List (Byte × Byte)) :
    lineRegion c1 c2 side len tokens =
      Config.headMarker :: (join (grammarFields c1 c2 side len tokens) ++ [Config.separator]) := by
  simp [lineRegion, grammarFields, join, List.flatMap_map]

/-- The fields of good parts have no comma, so a receiver splits them as they were joined. -/
theorem split_grammarFields {c1 c2 : Byte} {side : Side} {len : List Byte} {tokens : List (Byte × Byte)}
    (h1 : isHex c1 = true) (h2 : isHex c2 = true) (hlen : ∀ ch ∈ len, isHex ch = true)
    (htokens : ∀ p ∈ tokens, isHex p.1 = true ∧ isHex p.2 = true) :
    split (join (grammarFields c1 c2 (sideChar side) len tokens)) = grammarFields c1 c2 (sideChar side) len tokens := by
  refine split_join _ _ fun field hfield => ?_
  simp only [List.mem_cons, List.mem_map] at hfield
  obtain rfl | rfl | rfl | ⟨p, hp, rfl⟩ := hfield
  · exact digits_no_separator h1 h2
  · exact sideChar_no_separator side
  · exact fun hc => isHex_ne_separator _ (hlen _ hc) rfl
  · exact digits_no_separator (htokens p hp).1 (htokens p hp).2

/-- The field checks read a frame exactly from the fields of the grammar that have its values. -/
theorem parseFields_eq_some_grammar {fs : List (List Byte)} {ck : List Byte} {f : Frame} :
    parseFields (fs ++ [ck]) f.checksum = some f ↔
      ∃ c1 c2 len tokens, fs = grammarFields c1 c2 (sideChar f.side) len tokens ∧
        isHex c1 = true ∧ isHex c2 = true ∧ f.cmd.toNat = 16 * hexVal c1 + hexVal c2 ∧
        len ≠ [] ∧ (∀ ch ∈ len, isHex ch = true) ∧ hexNum len = tokens.length ∧ tokens.length ≤ 255 ∧
        (∀ p ∈ tokens, isHex p.1 = true ∧ isHex p.2 = true) ∧
        f.payload.map BitVec.toNat = tokens.map (fun p => 16 * hexVal p.1 + hexVal p.2) := by
  simp only [parseFields_eq_some, hexByte?_eq_some, sideField?_eq_some, lenField?_eq_some, payloadFields?_eq_some]
  constructor
  · rintro ⟨_, _, len, _, rfl, ⟨c1, c2, rfl, h1, h2, hcmd⟩, rfl, hlen, ⟨tokens, rfl, htokens, hvalues⟩, -⟩
    rw [List.length_map] at hlen
    obtain ⟨hne, hhex, hnum, hle⟩ := hlen
    exact ⟨c1, c2, len, tokens, rfl, h1, h2, hcmd, hne, hhex, hnum, hle, htokens, hvalues⟩
  · rintro ⟨c1, c2, len, tokens, rfl, h1, h2, hcmd, hne, hhex, hnum, hle, htokens, hvalues⟩
    exact ⟨_, _, len, _, rfl, ⟨c1, c2, rfl, h1, h2, hcmd⟩, rfl, by rw [List.length_map]; exact ⟨hne, hhex, hnum, hle⟩,
      ⟨tokens, rfl, htokens, hvalues⟩, trivial⟩

/-- A hex digit is never the kind character of a Nack. -/
theorem isHex_ne_kindNack {ch : Byte} (h : isHex ch = true) : ch ≠ Config.kindNack := by
  rintro rfl
  cases h

/-- Settles O25: the decoder's checks are read off the line one by one; joined and split, the fields are those of the
grammar. -/
theorem dataLinesExactly : Obligations.DataLinesExactly := by
  intro line f
  simp only [decodeFrame_eq_data, parseData_eq_ok, parseFields_eq_some_grammar, lineRegion_eq_join]
  constructor
  · rintro ⟨_, rfl, hl, -, hA, before, ck, rfl, -, hck, hsum, c1, c2, len, tokens, hsplit, h1, h2, hcmd, hne, hhex, hnum, hle,
      htokens, hvalues⟩
    obtain ⟨k1, k2, rfl, hk1, hk2, hk⟩ := hexByte?_eq_some.mp hck
    obtain rfl : join (grammarFields c1 c2 (sideChar f.side) len tokens) = before := by rw [← hsplit, (join_split before).1]
    exact ⟨c1, c2, k1, k2, len, tokens, by simp, hl, fun hc => hA (congrArg some hc), h1, h2, hcmd, hne, hhex, hnum, hle,
      htokens, hvalues, hk1, hk2, hk, hsum⟩
  · rintro ⟨c1, c2, k1, k2, len, tokens, rfl, hl, hA, h1, h2, hcmd, hne, hhex, hnum, hle, htokens, hvalues, hk1, hk2, hk, hsum⟩
    refine ⟨_, rfl, hl, fun hc => isHex_ne_kindNack h1 (Option.some.inj hc), fun hc => hA (Option.some.inj hc),
      _, [k1, k2], List.append_assoc .., digits_no_separator hk1 hk2, hexByte?_eq_some.mpr ⟨k1, k2, rfl, hk1, hk2, hk⟩, hsum,
      c1, c2, len, tokens, split_grammarFields h1 h2 hhex htokens, h1, h2, hcmd, hne, hhex, hnum, hle, htokens, hvalues⟩

/-! ## The operation DECODE (42_decode.md R134) -/

/-- A decoded payload is never longer than its store. -/
theorem decodeFrame_payload_le {line : List Byte} {f : Frame} (h : decodeFrame line = .data f) : f.payload.length ≤ 255 := by
  obtain ⟨_, -, -, -, -, hparse⟩ := decodeFrame_eq_data.mp h
  exact parseData_le hparse

/-- Settles O28, by the decoder's four outcomes: each ends the operation and writes nothing but result latches. -/
theorem decodeCompletes : Obligations.DecodeCompletes := by
  refine ⟨fun ao sd c s => ?_, by decide +kernel⟩
  simp only [exec, execDecode]
  cases h : decodeFrame s.operand with
  | data f =>
    have hdelivered := bytesDelivered_finish s .ok (dataResults f) f.payload rfl
      ((decodeFrame_payload_le h).trans (by decide))
    refine ⟨_, rfl, rfl, onlyResults_finish s _ _, ?_, nofun, nofun, nofun⟩
    rintro _ ⟨⟩
    exact ⟨rfl, rfl, rfl, rfl, hdelivered, rfl, rfl⟩
  | ack => exact ⟨_, rfl, rfl, onlyResults_finish s _ _, nofun, fun _ => ⟨rfl, rfl, rfl⟩, nofun, nofun⟩
  | nack => exact ⟨_, rfl, rfl, onlyResults_finish s _ _, nofun, nofun, fun _ => ⟨rfl, rfl⟩, nofun⟩
  | error e =>
    refine ⟨_, rfl, rfl, onlyResults_finish s _ _, nofun, nofun, nofun, ?_⟩
    rintro _ ⟨⟩
    exact ⟨rfl, decodeFrame_error h⟩

end Sys2Proof.Machine

/-! PROOF. The statements of 43_correlator.md: what a wait does with each receive event, the read loop its steps run, FETCH,
which entries of the table a step may change and how, and the recorded side that nothing reads. -/

namespace Sys2Proof.Machine

open Sys2Proof.Safety

/-! ## What a wait does with one receive event (43_correlator.md R152) -/

/-- An Ack in a wait (R156 to R158): what is buffered is released or the side is wrong; with nothing buffered the wait ends
if `ack_only` is set and goes on otherwise. -/
def State.onAck (s : State) (w : Waiting) : State :=
  match (s.tabRead w.cmd).buf with
  | some b => if b.side = w.side then s.release w.cmd b else s.evict w.cmd .channelMismatch
  | none => if w.ackOnly then (s.tabWrite w.cmd Entry.idle).complete { hasPayload := some false } else s

/-- What a wait does with the decoder's result for a line (R154 to R162). -/
def State.onLine (s : State) (w : Waiting) : Received → State
  | .nack => s.evict w.cmd .commandRejected
  | .ack => s.onAck w
  | .data f => s.store f
  | .error e => s.raise e

/-- What a wait does with a receive event that has been taken from `RX`. -/
def State.onEvent (s : State) (w : Waiting) : Event → State
  | .timeout => s.evict w.cmd .responseTimeout
  | .line bytes => s.onLine w (decodeFrame bytes)

section
variable {s : State} {w : Waiting}

theorem State.onAck_of_side {b : Buffered} (hb : (s.tabRead w.cmd).buf = some b) (hside : b.side = w.side) :
    s.onAck w = s.release w.cmd b := by
  simp only [State.onAck, hb, if_pos hside]

theorem State.onAck_of_other_side {b : Buffered} (hb : (s.tabRead w.cmd).buf = some b) (hside : b.side ≠ w.side) :
    s.onAck w = s.evict w.cmd .channelMismatch := by
  simp only [State.onAck, hb, if_neg hside]

theorem State.onAck_of_ackOnly (hb : (s.tabRead w.cmd).buf = none) (hao : w.ackOnly = true) :
    s.onAck w = (s.tabWrite w.cmd Entry.idle).complete { hasPayload := some false } := by
  simp only [State.onAck, hb, if_pos hao]

theorem State.onAck_of_nothing (hb : (s.tabRead w.cmd).buf = none) (hao : w.ackOnly = false) : s.onAck w = s := by
  simp only [State.onAck, hb, hao, Bool.false_eq_true, if_false]

/-- In a wait the meaning of a line is what the wait does with the decoder's result for it. -/
theorem exec_line (hw : s.waiting = some w) (k : LineKind) : exec k.toInstr s = .next (s.onLine w (received k)) := by
  cases k with
  | nack rest => simp only [LineKind.toInstr, exec, execNack, hw, received, State.onLine]
  | ack rest =>
    simp only [LineKind.toInstr, exec, execAck, hw, received, State.onLine, State.onAck]
    cases (s.tabRead w.cmd).buf with
    | none => cases w.ackOnly <;> rfl
    | some b => exact (apply_ite Host.Outcome.next _ _ _).symm
  | data body =>
    simp only [LineKind.toInstr, exec, execData, hw, received]
    cases parseData body <;> rfl
  | malformed line => simp only [LineKind.toInstr, exec, execMalformed, hw, received, State.onLine]

/-- Outside a wait a line has no effect (log 18). -/
theorem exec_line_outside_wait (hw : s.waiting = none) (k : LineKind) : exec k.toInstr s = .next s := by
  cases k <;> simp only [LineKind.toInstr, exec, execNack, execAck, execData, execMalformed, hw]

/-- A step of a wait takes the next event from `RX` and does with it what the wait does. -/
theorem step_of_event {ev : Event} {rest : List Event} (hr : s.rst = false) (hw : s.waiting = some w) (hx : s.rx = ev :: rest) :
    step s = .next (State.onEvent { s with rx := rest } w ev) := by
  cases ev with
  | timeout => exact step_of_timeout hr hw hx
  | line bytes => exact (step_of_line hr hw hx).trans (exec_line (s := { s with rx := rest }) hw (classify bytes))

end

/-- Settles O5, from what a step finds to take up. -/
theorem stepRunsReceivedLine : Obligations.StepRunsReceivedLine :=
  fun _ _ _ _ hr hw hx => step_of_line hr hw hx

/-- Settles O52: the meanings of Ack and Nack do not name the rest of the line. -/
theorem ackAndNackTextIgnored : Obligations.AckAndNackTextIgnored :=
  fun _ _ _ => ⟨rfl, rfl⟩

/-! ## The end of an operation that empties an entry -/

/-- From `s` to `t` the entry of `c` has become Idle; other entries, the streams and the host port are as before. -/
structure OnlyEmptied (c : Byte) (s t : State) : Prop where
  idle : t.tabRead c = Entry.idle
  others : TableSameBut c s t
  tx : t.tx = s.tx
  rx : t.rx = s.rx
  port : PortSame s t

/-- Evictions and releases, however they end, empty the one entry. -/
theorem onlyEmptied_finish {s : State} (hm : s.mem.wf) (c : Byte) (st : Status) (r : Results) :
    OnlyEmptied c s ((s.tabWrite c Entry.idle).finish st r) where
  idle := s.tabRead_tabWrite_eq hm c _
  others x hx := s.tabRead_tabWrite_ne c x _ hx
  tx := rfl
  rx := rfl
  port := ⟨rfl, rfl, rfl, rfl, rfl⟩

/-- A release from a state with the invariant delivers the whole payload. -/
theorem bytesDelivered_release {s : State} {c : Byte} {b : Buffered} (h : EngineInv s) (hb : (s.tabRead c).buf = some b) :
    BytesDelivered b.data (s.release c b) :=
  bytesDelivered_finish _ _ _ _ rfl ((h.payloads c b hb).trans (by decide))

/-- Settles O7: a timeout evicts the awaited record. -/
theorem timeoutEndsWait : Obligations.TimeoutEndsWait := by
  intro s w rest h hr hw hx
  obtain ⟨hidle, hothers, htx, hrx, hport⟩ :=
    onlyEmptied_finish (s := { s with rx := rest }) h.table w.cmd .responseTimeout {}
  exact ⟨_, step_of_timeout hr hw hx, ⟨rfl, rfl⟩, hidle, hothers, hrx, htx,
    ⟨hport.cw, hport.opLen, hport.opBuf, hport.start, hport.rst⟩⟩

/-- Settles O31: a Nack evicts the awaited record. -/
theorem nackEndsWait : Obligations.NackEndsWait := by
  intro s w rest h hw
  obtain ⟨hidle, hothers, htx, hrx, hport⟩ := onlyEmptied_finish h.table w.cmd .commandRejected {}
  exact ⟨_, exec_line hw (.nack rest), ⟨rfl, rfl⟩, hidle, hothers, htx, hrx, hport⟩

/-- Settles O32: an Ack releases the buffered payload or evicts it, by its side. -/
theorem ackWithBufferedPayload : Obligations.AckWithBufferedPayload := by
  intro s w rest b h hw hb
  have hack : exec (.ack rest) s = .next (s.onAck w) := exec_line hw (.ack rest)
  by_cases hside : b.side = w.side
  · rw [State.onAck_of_side hb hside] at hack
    obtain ⟨hidle, hothers, htx, hrx, hport⟩ := onlyEmptied_finish h.table w.cmd .ok
      { hasPayload := some true, side := some (sideCode b.side), bytes := some b.data }
    exact ⟨_, hack, rfl, hidle, hothers, htx, hrx, hport,
      fun _ => ⟨rfl, rfl, rfl, bytesDelivered_release h hb⟩, fun hne => absurd hside hne⟩
  · rw [State.onAck_of_other_side hb hside] at hack
    obtain ⟨hidle, hothers, htx, hrx, hport⟩ := onlyEmptied_finish h.table w.cmd .channelMismatch {}
    exact ⟨_, hack, rfl, hidle, hothers, htx, hrx, hport, fun heq => absurd heq hside, fun _ => rfl⟩

/-- Settles O33: with nothing buffered an Ack ends the wait if `ack_only` is set, and does nothing otherwise. -/
theorem ackWithNothingBuffered : Obligations.AckWithNothingBuffered := by
  intro s w rest h hw hb
  have hack : exec (.ack rest) s = .next (s.onAck w) := exec_line hw (.ack rest)
  constructor
  · intro hao
    rw [State.onAck_of_ackOnly hb hao] at hack
    obtain ⟨hidle, hothers, htx, hrx, hport⟩ := onlyEmptied_finish h.table w.cmd .ok { hasPayload := some false }
    exact ⟨_, hack, ⟨rfl, rfl⟩, rfl, hidle, hothers, htx, hrx, hport⟩
  · intro hao
    rwa [State.onAck_of_nothing hb hao] at hack

/-- A stored entry is not Idle, so it reads back whatever form the table has. -/
theorem State.tabRead_store (s : State) (f : Frame) :
    (s.store f).tabRead f.cmd = ⟨(s.tabRead f.cmd).pending, some ⟨f.side, f.payload⟩⟩ :=
  s.tabRead_tabWrite_of_ne_idle f.cmd fun h => Option.some_ne_none _ (congrArg Entry.buf h)

/-- Settles O34: the wait stores the frame, which is one write to the table. -/
theorem dataFrameStored : Obligations.DataFrameStored := by
  intro s w body f hw hp
  exact ⟨_, exec_data_store hw hp, hw, s.tabRead_store f,
    fun x hx => s.tabRead_tabWrite_ne f.cmd x _ hx, rfl, rfl, ⟨rfl, rfl, rfl, rfl, rfl⟩,
    ⟨rfl, rfl, rfl, rfl, rfl, rfl, rfl, fun _ => rfl⟩⟩

/-- Settles O35: the wait raises the decoder's error and writes nothing but result latches. -/
theorem badLineEndsWait : Obligations.BadLineEndsWait := by
  refine ⟨fun s w body e hw hp => ⟨parseData_error hp, s.raise e, ?_, raise_answer s e⟩,
    fun s w line hw => ⟨_, exec_line hw (.malformed line), raise_answer s _⟩⟩
  have hexec := exec_line hw (.data body)
  rwa [received_of_error hp] at hexec

/-! ## AWAIT begins, FETCH releases -/

/-- Settles O29: AWAIT with a legal side writes the wait in progress only. -/
theorem awaitBegins : Obligations.AwaitBegins := by
  intro ao sd c s side hs
  exact ⟨{ s with waiting := some ⟨c, side, ao⟩ }, by simp only [exec, execAwait, hs], rfl,
    ⟨fun _ => rfl, rfl, rfl, ⟨rfl, rfl, rfl, rfl, rfl⟩⟩, ⟨rfl, rfl, rfl, rfl, rfl, rfl, rfl, fun _ => rfl⟩⟩

/-- Settles O30: 3 is the code of no side. -/
theorem awaitRefusesSideThree : Obligations.AwaitRefusesSideThree :=
  fun _ _ s => ⟨_, rfl, raise_answer s _⟩

/-- Settles O36, by what is buffered. -/
theorem fetchCompletes : Obligations.FetchCompletes := by
  intro ao sd c s h
  constructor
  · intro b hb
    obtain ⟨hidle, hothers, htx, hrx, hport⟩ := onlyEmptied_finish h.table c .ok
      { hasPayload := some true, side := some (sideCode b.side), bytes := some b.data }
    exact ⟨s.release c b, by simp only [exec, execFetch, hb], ⟨rfl, rfl⟩, rfl, rfl, bytesDelivered_release h hb,
      hidle, hothers, htx, hrx, hport⟩
  · intro hb
    exact ⟨s.complete { hasPayload := some false }, by simp only [exec, execFetch, hb], ⟨rfl, rfl⟩, rfl,
      onlyResults_finish s _ _⟩

/-! ## What ends a wait (43_correlator.md R166) -/

theorem State.onAck_ends_iff {s : State} {w : Waiting} (hw : s.waiting = some w) :
    (s.onAck w).waiting = none ↔ (s.tabRead w.cmd).buf ≠ none ∨ w.ackOnly = true := by
  cases hb : (s.tabRead w.cmd).buf with
  | some b =>
    by_cases hside : b.side = w.side
    · simp [State.onAck_of_side hb hside]
    · simp [State.onAck_of_other_side hb hside]
  | none =>
    cases hao : w.ackOnly with
    | true => simp [State.onAck_of_ackOnly hb hao]
    | false => simp [State.onAck_of_nothing hb hao, hw]

theorem State.onLine_ends_iff {s : State} {w : Waiting} (hw : s.waiting = some w) (r : Received) :
    (s.onLine w r).waiting = none ↔
      (∃ e, r = .error e) ∨ r = .nack ∨ (r = .ack ∧ ((s.tabRead w.cmd).buf ≠ none ∨ w.ackOnly = true)) := by
  cases r with
  | nack => simp [State.onLine]
  | ack => simp [State.onLine, State.onAck_ends_iff hw]
  | data f => simp [State.onLine, hw]
  | error e => simp [State.onLine]

/-- Settles O49, by the event and the decoder's result for a line. -/
theorem whatEndsAWait : Obligations.WhatEndsAWait := by
  intro s t w ev rest hr hw hx hstep
  rw [step_of_event hr hw hx] at hstep
  cases hstep
  cases ev with
  | timeout => exact ⟨fun _ => .inl rfl, fun _ => rfl⟩
  | line bytes =>
    have hends := State.onLine_ends_iff (s := { s with rx := rest }) hw (decodeFrame bytes)
    refine hends.trans ⟨fun h => .inr ⟨bytes, rfl, h⟩, ?_⟩
    rintro (h | ⟨_, ⟨⟩, h⟩)
    · cases h
    · exact h

/-! ## The read loop (43_correlator.md R152) -/

/-- One event of the loop, beside what the wait does with it: either the loop ends there and the operation ends with the
loop's table, status and latches, or both go on with the same table. -/
theorem readLoop_cons (s : State) (w : Waiting) (ev : Event) (rest : List Event) :
    (∃ m st r, readLoop w s.mem (ev :: rest) = ⟨m, rest, some (st, r)⟩ ∧
      State.onEvent { s with rx := rest } w ev = (withTableAndEvents s m rest).finish st r) ∨
    (∃ m, readLoop w s.mem (ev :: rest) = readLoop w m rest ∧
      State.onEvent { s with rx := rest } w ev = withTableAndEvents s m rest) := by
  cases ev with
  | timeout => exact .inl ⟨_, _, _, rfl, rfl⟩
  | line bytes =>
    simp only [readLoop, State.onEvent]
    cases decodeFrame bytes with
    | error e => exact .inl ⟨_, _, _, rfl, rfl⟩
    | nack => exact .inl ⟨_, _, _, rfl, rfl⟩
    | data f => exact .inr ⟨_, rfl, rfl⟩
    | ack =>
      simp only [State.onLine, State.onAck, State.tabRead]
      cases (s.mem.read w.cmd.toNat).buf with
      | some b =>
        by_cases hside : b.side = w.side
        · simp only [if_pos hside]
          exact .inl ⟨_, _, _, rfl, rfl⟩
        · simp only [if_neg hside]
          exact .inl ⟨_, _, _, rfl, rfl⟩
      | none =>
        cases w.ackOnly with
        | true => exact .inl ⟨_, _, _, rfl, rfl⟩
        | false => exact .inr ⟨_, rfl, rfl⟩

/-- The steps of a wait run the loop: one step for each event it consumes. -/
theorem run_readLoop {w : Waiting} (evs : List Event) {s : State} (hr : s.rst = false) (hw : s.waiting = some w)
    (hx : s.rx = evs) :
    ∃ k, evs.length = (readLoop w s.mem evs).rx.length + k ∧
      Host.Core.run core k s = .next (afterLoop s (readLoop w s.mem evs)) := by
  induction evs generalizing s with
  | nil =>
    have hstays : afterLoop s (readLoop w s.mem []) = s := congrArg (withTableAndEvents s s.mem) hx.symm
    exact ⟨0, rfl, congrArg Host.Outcome.next hstays.symm⟩
  | cons ev rest ih =>
    have hstep := step_of_event hr hw hx
    obtain ⟨m, st, r, hloop, hend⟩ | ⟨m, hloop, hgo⟩ := readLoop_cons s w ev rest
    · rw [hend] at hstep
      rw [hloop]
      exact ⟨1, rfl, run_succ_of_step hstep 0⟩
    · rw [hgo] at hstep
      obtain ⟨k, hlen, hrun⟩ := ih (s := withTableAndEvents s m rest) hr hw rfl
      rw [hloop]
      exact ⟨k + 1, congrArg Nat.succ hlen, (run_succ_of_step hstep k).trans hrun⟩

/-- Settles O50, by the induction over the events: the steps counted there are the events consumed. -/
theorem awaitRunsReadLoop : Obligations.AwaitRunsReadLoop := by
  intro s w hr hw
  obtain ⟨k, hlen, hrun⟩ := run_readLoop s.rx hr hw rfl
  rwa [hlen, Nat.add_sub_cancel_left]

/-! ## Which entries a step changes, and how (43_correlator.md R150) -/

/-- An entry that reads otherwise after a write is the written one. -/
theorem State.eq_of_tabWrite_changed {s : State} {c d : Byte} {e : Entry}
    (h : (s.tabWrite d e).tabRead c ≠ s.tabRead c) : d = c :=
  by_contra fun hne => h (s.tabRead_tabWrite_ne d c e (Ne.symm hne))

/-- How an instruction changes an entry: it empties it, opens its record, or stores a Data frame in it. -/
theorem Effect.entry_cases {i : Instr} {s t : State} {c : Byte} (hE : Effect i s t) (hne : t.tabRead c ≠ s.tabRead c) :
    (((∃ ao sd, i = .fetch ao sd c) ∨ ∃ w, s.waiting = some w ∧ w.cmd = c) ∧
      (s.mem.wf → t.tabRead c = Entry.idle)) ∨
    (∃ ao sd side, i = .send ao sd c ∧ sideOf sd = some side ∧ (s.tabRead c).pending = none ∧
      t.tabRead c = ⟨some side, none⟩) ∨
    (∃ body f, i = .data body ∧ s.waiting ≠ none ∧ parseData body = .ok f ∧ f.cmd = c ∧
      t.tabRead c = ⟨(s.tabRead c).pending, some ⟨f.side, f.payload⟩⟩) := by
  cases hE with
  | same | begin | ended => exact absurd rfl hne
  | emptied d st r h =>
    obtain rfl := State.eq_of_tabWrite_changed hne
    exact .inl ⟨h, fun hm => s.tabRead_tabWrite_eq hm d _⟩
  | sent ao sd d side hi hs hl hp =>
    obtain rfl := State.eq_of_tabWrite_changed (s := s.txWrite _) hne
    exact .inr (.inl ⟨ao, sd, side, hi, hs, hp, (s.txWrite _).tabRead_tabWrite_of_ne_idle d nofun⟩)
  | stored body f w hi hw hf =>
    obtain rfl := State.eq_of_tabWrite_changed hne
    exact .inr (.inr ⟨body, f, hi, by simp [hw], hf, rfl, s.tabRead_store f⟩)

/-- Only a line of the Data kind stands for the row of Data lines. -/
theorem eq_data_of_toInstr {k : LineKind} {body : List Byte} (h : k.toInstr = .data body) : k = .data body := by
  cases k <;> cases h
  rfl

/-- What a wait runs is a row of the wire, and never a FETCH. -/
theorem toInstr_ne_fetch (k : LineKind) (ao : Bool) (sd : BitVec 2) (c : Byte) : k.toInstr ≠ .fetch ao sd c := by
  cases k <;> nofun

/-- How a step without reset changes an entry: a FETCH of its id or the end of a wait for it empties it, a SEND of its id
opens its record, a Data frame of its id is stored in it. -/
theorem step_entry_cases {s t : State} {c : Byte} (hr : s.rst = false) (hstep : step s = .next t)
    (hne : t.tabRead c ≠ s.tabRead c) :
    (((s.waiting = none ∧ s.start = true ∧ ∃ ao sd, decode (.commandWord s.cw) = .fetch ao sd c) ∨
      ∃ w, s.waiting = some w ∧ w.cmd = c) ∧ (s.mem.wf → t.tabRead c = Entry.idle)) ∨
    (s.waiting = none ∧ s.start = true ∧ (s.tabRead c).pending = none ∧ ∃ ao sd side,
      decode (.commandWord s.cw) = .send ao sd c ∧ sideOf sd = some side ∧ t.tabRead c = ⟨some side, none⟩) ∨
    (s.waiting ≠ none ∧ ∃ bytes rest f, s.rx = .line bytes :: rest ∧ decodeFrame bytes = .data f ∧ f.cmd = c ∧
      t.tabRead c = ⟨(s.tabRead c).pending, some ⟨f.side, f.payload⟩⟩) := by
  obtain ⟨h, -⟩ | ⟨-, -, -, rfl⟩ | ⟨-, hw, hs, hE⟩ | ⟨-, w, hw, hev⟩ := step_effect hstep
  · simp [hr] at h
  · exact absurd rfl hne
  · obtain ⟨hfetch | ⟨w, hw', -⟩, hidle⟩ | ⟨ao, sd, side, hi, hsd, hp, ht⟩ | ⟨body, f, -, hw', -⟩ :=
      hE.entry_cases hne
    · exact .inl ⟨.inl ⟨hw, hs, hfetch⟩, hidle⟩
    · simp [hw] at hw'
    · exact .inr (.inl ⟨hw, hs, hp, ao, sd, side, hi, hsd, ht⟩)
    · exact absurd hw hw'
  · obtain ⟨-, rfl⟩ | ⟨rest, -, rfl⟩ | ⟨bytes, rest, hx, -, hE⟩ := hev
    · exact absurd rfl hne
    · have hc := State.eq_of_tabWrite_changed (s := { s with rx := rest }) hne
      exact .inl ⟨.inr ⟨w, hw, hc⟩, fun hm => hc ▸ State.tabRead_tabWrite_eq { s with rx := rest } hm w.cmd _⟩
    · obtain ⟨⟨ao, sd, hi⟩ | hawaited, hidle⟩ | ⟨ao, sd, side, hi, -⟩ | ⟨body, f, hi, -, hf, hc, ht⟩ :=
        hE.entry_cases hne
      · exact absurd hi (toInstr_ne_fetch (classify bytes) ao sd c)
      · exact .inl ⟨.inr hawaited, hidle⟩
      · exact absurd hi (toInstr_ne_send (classify bytes) ao sd c)
      · have hk : classify bytes = .data body := eq_data_of_toInstr hi
        have hdata : decodeFrame bytes = .data f := by simp only [decodeFrame, hk, received, hf]
        exact .inr (.inr ⟨by simp [hw], bytes, rest, f, hx, hdata, hc, ht⟩)

/-- Settles O42: each way an entry changes names its id. -/
theorem onlyNamedEntriesChange : Obligations.OnlyNamedEntriesChange := by
  intro s t c hr hstep hne
  obtain ⟨⟨hw, hs, ao, sd, hfetch⟩ | hawaited, -⟩ | ⟨hw, hs, -, ao, sd, -, hsend, -⟩ |
    ⟨hw, bytes, rest, f, hx, hf, hc, -⟩ := step_entry_cases hr hstep hne
  · exact .inl ⟨hw, hs, ao, sd, .inr hfetch⟩
  · exact .inr (.inl hawaited)
  · exact .inl ⟨hw, hs, ao, sd, .inl hsend⟩
  · exact .inr (.inr ⟨hw, bytes, rest, f, hx, hf, hc⟩)

/-- Settles O43: an emptied entry reads Idle because the table has canonical form. -/
theorem entryTransitions : Obligations.EntryTransitions :=
  fun _ _ _ h hr hstep hne => (step_entry_cases hr hstep hne).imp_left fun hemptied => hemptied.2 h.table

/-! ## A step with the reset asserted -/

theorem step_eq_resetEvent {s : State} (hr : s.rst = true) : step s = .next s.resetEvent := by
  simpa [hr] using step_of_fetch s

end Sys2Proof.Machine

namespace Sys2Proof.Safety

open Sys2Proof.Machine

/-! ## The recorded expected side is never read (43_correlator.md R164) -/

section
variable {s t : State} (h : SameButExpSides s t)
include h

/-! Such states agree in every field but the table, and in what a meaning reads of the table. -/

theorem SameButExpSides.operand_eq : t.operand = s.operand := (congrArg State.operand h.rest :)
theorem SameButExpSides.waiting_eq : t.waiting = s.waiting := (congrArg State.waiting h.rest :)
theorem SameButExpSides.buf_eq (c : Byte) : (t.tabRead c).buf = (s.tabRead c).buf := congrArg Prod.snd (h.entries c)
theorem SameButExpSides.isPending_eq (c : Byte) : (t.tabRead c).pending.isSome = (s.tabRead c).pending.isSome :=
  congrArg Prod.fst (h.entries c)

/-! What the engine writes keeps them so. -/

theorem SameButExpSides.finish (st : Status) (r : Results) : SameButExpSides (s.finish st r) (t.finish st r) :=
  ⟨h.entries, congrArg (State.finish · st r) h.rest⟩

theorem SameButExpSides.txWrite (bytes : List Byte) : SameButExpSides (s.txWrite bytes) (t.txWrite bytes) :=
  ⟨h.entries, congrArg (State.txWrite · bytes) h.rest⟩

theorem SameButExpSides.takeEvent (rx : List Event) : SameButExpSides { s with rx := rx } { t with rx := rx } :=
  ⟨h.entries, congrArg (fun u : State => { u with rx := rx }) h.rest⟩

theorem SameButExpSides.takeStart : SameButExpSides { s with start := false } { t with start := false } :=
  ⟨h.entries, congrArg (fun u : State => { u with start := false }) h.rest⟩

theorem SameButExpSides.beginWait (w : Waiting) :
    SameButExpSides { s with waiting := some w } { t with waiting := some w } :=
  ⟨h.entries, congrArg (fun u : State => { u with waiting := some w }) h.rest⟩

theorem SameButExpSides.resetEvent : SameButExpSides s.resetEvent t.resetEvent :=
  ⟨fun _ => rfl, (congrArg State.resetEvent h.rest :)⟩

variable (hs : s.mem.wf) (ht : t.mem.wf)
include hs ht

/-- Written entries that differ in the recorded side only leave such states. -/
theorem SameButExpSides.tabWrite (c : Byte) {e e' : Entry} (he : forgetExpSide e' = forgetExpSide e) :
    SameButExpSides (s.tabWrite c e) (t.tabWrite c e') where
  entries d := by
    by_cases hd : d = c
    · rw [hd, t.tabRead_tabWrite_eq ht, s.tabRead_tabWrite_eq hs, he]
    · rw [t.tabRead_tabWrite_ne c d e' hd, s.tabRead_tabWrite_ne c d e hd, h.entries d]
  rest := congrArg (fun u : State => { u with mem := t.mem.write c.toNat e' }) h.rest

theorem SameButExpSides.empty (c : Byte) (st : Status) (r : Results) :
    SameButExpSides ((s.tabWrite c Entry.idle).finish st r) ((t.tabWrite c Entry.idle).finish st r) :=
  (h.tabWrite hs ht c rfl).finish st r

/-- Storing a Data frame keeps the recorded side as it is and does not read it. -/
theorem SameButExpSides.store (f : Frame) : SameButExpSides (s.store f) (t.store f) :=
  h.tabWrite hs ht f.cmd (congrArg (·, some _) (h.isPending_eq f.cmd))

/-- An Ack is checked against the side of the wait, and not against the recorded one. -/
theorem SameButExpSides.onAck (w : Waiting) : SameButExpSides (s.onAck w) (t.onAck w) := by
  have hbuf := h.buf_eq w.cmd
  cases hb : (s.tabRead w.cmd).buf with
  | some b =>
    by_cases hside : b.side = w.side
    · rw [State.onAck_of_side hb hside, State.onAck_of_side (hbuf.trans hb) hside]
      exact h.empty hs ht w.cmd _ _
    · rw [State.onAck_of_other_side hb hside, State.onAck_of_other_side (hbuf.trans hb) hside]
      exact h.empty hs ht w.cmd _ _
  | none =>
    cases hao : w.ackOnly with
    | true =>
      rw [State.onAck_of_ackOnly hb hao, State.onAck_of_ackOnly (hbuf.trans hb) hao]
      exact h.empty hs ht w.cmd _ _
    | false =>
      rw [State.onAck_of_nothing hb hao, State.onAck_of_nothing (hbuf.trans hb) hao]
      exact h

theorem SameButExpSides.onLine (w : Waiting) (r : Received) : SameButExpSides (s.onLine w r) (t.onLine w r) := by
  cases r with
  | nack => exact h.empty hs ht w.cmd _ _
  | ack => exact h.onAck hs ht w
  | data f => exact h.store hs ht f
  | error e => exact h.finish e {}

theorem SameButExpSides.onEvent (w : Waiting) (ev : Event) : SameButExpSides (s.onEvent w ev) (t.onEvent w ev) := by
  cases ev with
  | timeout => exact h.empty hs ht w.cmd _ _
  | line bytes => exact h.onLine hs ht w _

theorem SameButExpSides.of_line (k : LineKind) :
    ∃ s' t', exec k.toInstr s = .next s' ∧ exec k.toInstr t = .next t' ∧ SameButExpSides s' t' := by
  cases hw : s.waiting with
  | none => exact ⟨_, _, exec_line_outside_wait hw k, exec_line_outside_wait (h.waiting_eq.trans hw) k, h⟩
  | some w => exact ⟨_, _, exec_line hw k, exec_line (h.waiting_eq.trans hw) k, h.onLine hs ht w _⟩

/-- No instruction reads the recorded side: SEND looks at the pending bit, FETCH and Ack at the buffer. -/
theorem SameButExpSides.of_exec (i : Instr) :
    ∃ s' t', exec i s = .next s' ∧ exec i t = .next t' ∧ SameButExpSides s' t' := by
  cases i with
  | checksum ao sd c =>
    simp only [exec, execChecksum, h.operand_eq]
    exact ⟨_, _, rfl, rfl, h.finish _ _⟩
  | encode ao sd c =>
    simp only [exec, execEncode, h.operand_eq]
    cases encodeOperands? sd s.operand <;> exact ⟨_, _, rfl, rfl, h.finish _ _⟩
  | send ao sd c =>
    simp only [exec, execSend, h.operand_eq, h.isPending_eq]
    cases encodeOperands? sd s.operand with
    | none => exact ⟨_, _, rfl, rfl, h.finish _ _⟩
    | some side =>
      cases (s.tabRead c).pending.isSome with
      | true => exact ⟨_, _, rfl, rfl, h.finish _ _⟩
      | false => exact ⟨_, _, rfl, rfl, ((h.txWrite _).tabWrite hs ht c rfl).finish _ _⟩
  | decode ao sd c =>
    simp only [exec, execDecode, h.operand_eq]
    cases decodeFrame s.operand <;> exact ⟨_, _, rfl, rfl, h.finish _ _⟩
  | await ao sd c =>
    simp only [exec, execAwait]
    cases sideOf sd with
    | none => exact ⟨_, _, rfl, rfl, h.finish _ _⟩
    | some side => exact ⟨_, _, rfl, rfl, h.beginWait _⟩
  | fetch ao sd c =>
    simp only [exec, execFetch, h.buf_eq]
    cases (s.tabRead c).buf with
    | none => exact ⟨_, _, rfl, rfl, h.finish _ _⟩
    | some b => exact ⟨_, _, rfl, rfl, h.empty hs ht c _ _⟩
  | reservedOp6 | reservedOp7 | reservedBit8 | reservedBit9 => exact ⟨_, _, rfl, rfl, h.finish _ _⟩
  | nack rest => exact h.of_line hs ht (.nack rest)
  | ack rest => exact h.of_line hs ht (.ack rest)
  | data body => exact h.of_line hs ht (.data body)
  | malformed line => exact h.of_line hs ht (.malformed line)

/-- No step reads the recorded side: the two states take up the same, and what they take up does not read it. -/
theorem SameButExpSides.of_step : ∃ s' t', step s = .next s' ∧ step t = .next t' ∧ SameButExpSides s' t' := by
  have hrst : t.rst = s.rst := (congrArg State.rst h.rest :)
  have hstart : t.start = s.start := (congrArg State.start h.rest :)
  have hword : decode (.commandWord t.cw) = decode (.commandWord s.cw) :=
    (congrArg (fun u : State => decode (.commandWord u.cw)) h.rest :)
  have hrx : t.rx = s.rx := (congrArg State.rx h.rest :)
  have hwt := h.waiting_eq
  cases hr : s.rst with
  | true => exact ⟨_, _, step_eq_resetEvent hr, step_eq_resetEvent (hrst.trans hr), h.resetEvent⟩
  | false =>
    rw [hr] at hrst
    cases hw : s.waiting with
    | none =>
      rw [hw] at hwt
      cases hst : s.start with
      | false =>
        exact ⟨s, t, stepIdleOrBlocked s hr (.inl ⟨hw, hst⟩),
          stepIdleOrBlocked t hrst (.inl ⟨hwt, hstart.trans hst⟩), h⟩
      | true =>
        rw [stepRunsStartedCommand s hr hw hst, stepRunsStartedCommand t hrst hwt (hstart.trans hst), hword]
        exact h.takeStart.of_exec hs ht _
    | some w =>
      rw [hw] at hwt
      cases hx : s.rx with
      | nil => exact ⟨s, t, step_of_blocked hr hw hx, step_of_blocked hrst hwt (hrx.trans hx), h⟩
      | cons ev rest =>
        exact ⟨_, _, step_of_event hr hw hx, step_of_event hrst hwt (hrx.trans hx), (h.takeEvent rest).onEvent hs ht w ev⟩

end

end Sys2Proof.Safety

namespace Sys2Proof.Machine

/-- Settles O53: the second state's step is the one beside the first's. -/
theorem expSideNeverRead : Obligations.ExpSideNeverRead := by
  intro s1 s2 t1 hs1 hs2 h hstep
  obtain ⟨s', t', hs', ht', hsame⟩ := h.of_step hs1 hs2
  rw [hstep] at hs'
  cases hs'
  exact ⟨t', ht', hsame⟩

end Sys2Proof.Machine

namespace Sys2Proof.Machine

/-! ## Every step answers (60_exceptions.md R201) -/

/-- Settles O41: a step either goes straight to a state or runs an instruction, and every instruction's effect is a next
state. -/
theorem nothingIsFatal : Obligations.NothingIsFatal := by
  intro s
  unfold step
  cases fetch s with
  | run i s' =>
    obtain ⟨t, ht, -⟩ := exec_effect i s'
    exact ⟨t, ht⟩
  | done s' => exact ⟨s', rfl⟩

end Sys2Proof.Machine

namespace Sys2Proof.Machine

/-! ## What a reset leaves (70_reset_and_hazards.md R230, R231) -/

/-- Settles O8: with the reset asserted a step is the reset event, which ends the operation in progress on the state of
`State.reset` with the receive events kept; so a field is what `resetStateHolds` says of that state, or what the end writes. -/
theorem resetEventState : Obligations.ResetEventState := by
  intro s hr
  obtain ⟨hidle, htx, -⟩ := resetStateHolds
  exact ⟨s.resetEvent, step_eq_resetEvent hr, hidle, htx, ⟨rfl, rfl⟩, rfl, rfl, rfl, rfl⟩

end Sys2Proof.Machine
